-- ==== Sys2Proof/Word.lean ====
section
/-! DEFINITION. The two bit-vector types of the machine: the 16-bit word and the 8-bit byte. -/

namespace Sys2Proof

/-- A 16-bit value: a register, a memory word, an address or immediate operand (00_scope R6, 10_state R10). -/
abbrev Word := BitVec 16

/-- One addressable unit, 8 bits.
PRESUMED (G1 of 93_implementation_defined.md, log 20); safe: it is the only width at which two bytes make a word. -/
abbrev Byte := BitVec 8

end Sys2Proof
end

