-- ==== Sys2Proof/Syntax.lean ====
section
/-! DEFINITION. The instructions of varch-vm CORE, one constructor per row of the opcode table (30_encoding R80).

An operand is what the instruction stream holds: an index operand is its whole byte (30_encoding R74, R75), because
validating it is the second phase of the INSTRUCTION (40_loop R109), after all operands are fetched, and a byte above 15
has an effect of its own there (60_exceptions R206, R207). `WellFormed.lean` says which bytes are indices. -/

namespace Sys2Proof

/-- An instruction with its operands, first-listed operand first (30_encoding R73, R79).
`a b d r s` are register-index bytes, `j` is a flag-index byte, `m` an address word, `c` an immediate word. -/
inductive Instr where
  /-- `PUSH r`, opcode 0 (41_stack R120). -/
  | push (r : Byte)
  /-- `MOV [a],s`, opcode 1 (42_mov R130). -/
  | movMrR (a s : Byte)
  /-- `MOV [a],[m]`, opcode 2 (42_mov R131). -/
  | movMrM (a : Byte) (m : Word)
  /-- `MOV [a],c`, opcode 3 (42_mov R132). -/
  | movMrC (a : Byte) (c : Word)
  /-- `MOV d,s`, opcode 4 (42_mov R133). -/
  | movRR (d s : Byte)
  /-- `MOV d,[m]`, opcode 5 (42_mov R134). -/
  | movRM (d : Byte) (m : Word)
  /-- `MOV d,c`, opcode 6 (42_mov R135). -/
  | movRC (d : Byte) (c : Word)
  /-- `MOV d,[a]`, opcode 7 (42_mov R136). -/
  | movRMr (d a : Byte)
  /-- `SUB d,s`, opcode 8 (43_arithmetic R150). -/
  | subRR (d s : Byte)
  /-- `SUB d,c`, opcode 9 (43_arithmetic R151). -/
  | subRC (d : Byte) (c : Word)
  /-- `ADD d,s`, opcode 10 (43_arithmetic R152). -/
  | addRR (d s : Byte)
  /-- `ADD d,c`, opcode 11 (43_arithmetic R153). -/
  | addRC (d : Byte) (c : Word)
  /-- `CMP a,b`, opcode 12 (44_compare_flags R160). -/
  | cmp (a b : Byte)
  /-- `FLG d,j`, opcode 13 (44_compare_flags R161). -/
  | flg (d j : Byte)
  /-- `JNZ r,m`, opcode 14 (45_control_flow R170). -/
  | jnz (r : Byte) (m : Word)
  /-- `JMP m`, opcode 15 (45_control_flow R171). -/
  | jmp (m : Word)
  /-- `CALL a`, opcode 16 (45_control_flow R172). -/
  | call (a : Byte)
  /-- `POP r`, opcode 17 (41_stack R121). -/
  | pop (r : Byte)
  /-- `RET`, opcode 18 (45_control_flow R173). -/
  | ret
  /-- `HLT`, opcode 19 (46_system R180). -/
  | hlt
deriving DecidableEq, Repr

end Sys2Proof
end

