-- ==== Sys2Proof/WellFormed.lean ====
section
/-! DEFINITION. Which instructions are legal encodings: every index operand is 0 to 15 (30_encoding R74, R75, R84).
Every 16-bit operand is legal, and so is every combination of legal indices (R84). -/

namespace Sys2Proof

/-- A register-index byte names one of the 16 registers (30_encoding R74). -/
def regByteOk (b : Byte) : Bool := decide (b.toNat ≤ 15)

/-- A flag-index byte names one of the 16 slots (30_encoding R75). -/
def flagByteOk (b : Byte) : Bool := decide (b.toNat ≤ 15)

/-- The legal encodings (30_encoding R84). An instruction that fails the check is not refused: it raises
`InvalidRegisterIndex` or `InvalidFlagIndex` when it executes (60_exceptions R206, R207). -/
def Instr.wf : Instr → Bool
  | .push r => regByteOk r
  | .movMrR a s => regByteOk a && regByteOk s
  | .movMrM a _ => regByteOk a
  | .movMrC a _ => regByteOk a
  | .movRR d s => regByteOk d && regByteOk s
  | .movRM d _ => regByteOk d
  | .movRC d _ => regByteOk d
  | .movRMr d a => regByteOk d && regByteOk a
  | .subRR d s => regByteOk d && regByteOk s
  | .subRC d _ => regByteOk d
  | .addRR d s => regByteOk d && regByteOk s
  | .addRC d _ => regByteOk d
  | .cmp a b => regByteOk a && regByteOk b
  | .flg d j => regByteOk d && flagByteOk j
  | .jnz r _ => regByteOk r
  | .jmp _ => true
  | .call a => regByteOk a
  | .pop r => regByteOk r
  | .ret => true
  | .hlt => true

end Sys2Proof
end

