-- ==== Sys2Proof/Decode.lean ====
section
/-! DEFINITION. The decoder (total on any bytes, rejecting by name), the encoder written from the same table, and the
byte-order helpers both use. Opcode numbers: UNVERIFIED (log 22); unsafe: the source's literals were not audited. -/

namespace Sys2Proof

/-! ### Byte order (20_memory R40, R41) -/

/-- `v[15:8]`, the byte stored at the lower address (20_memory R40). -/
def hiByte (v : Word) : Byte := v.extractLsb' 8 8

/-- `v[7:0]`, the byte stored at the higher address (20_memory R40). -/
def loByte (v : Word) : Byte := v.extractLsb' 0 8

/-- `hi ++ lo`: the word of two consecutive bytes, high byte first (20_memory R40, R41). -/
def joinBytes (hi lo : Byte) : Word := hi ++ lo

/-! ### Formats and the opcode table (30_encoding R72, R80) -/

/-- The five formats of R72, each holding the instruction that its operands make. -/
inductive Shape where
  /-- format N: no operand. -/
  | n (i : Instr)
  /-- format R: one index byte. -/
  | r (f : Byte → Instr)
  /-- format RR: two index bytes. -/
  | rr (f : Byte → Byte → Instr)
  /-- format RW: one index byte, then one big-endian word. -/
  | rw (f : Byte → Word → Instr)
  /-- format W: one big-endian word. -/
  | w (f : Word → Instr)

/-- The opcode table: what an opcode byte selects, or nothing for 20 to 255 (30_encoding R71, R80, R83). -/
def opcodeTable (op : Byte) : Option Shape :=
  match op.toNat with
  | 0 => some (.r .push)
  | 1 => some (.rr .movMrR)
  | 2 => some (.rw .movMrM)
  | 3 => some (.rw .movMrC)
  | 4 => some (.rr .movRR)
  | 5 => some (.rw .movRM)
  | 6 => some (.rw .movRC)
  | 7 => some (.rr .movRMr)
  | 8 => some (.rr .subRR)
  | 9 => some (.rw .subRC)
  | 10 => some (.rr .addRR)
  | 11 => some (.rw .addRC)
  | 12 => some (.rr .cmp)
  | 13 => some (.rr .flg)
  | 14 => some (.rw .jnz)
  | 15 => some (.w .jmp)
  | 16 => some (.r .call)
  | 17 => some (.r .pop)
  | 18 => some (.n .ret)
  | 19 => some (.n .hlt)
  | _ => none

/-! ### The decoder -/

/-- Why a byte sequence is no instruction. -/
inductive DecodeError where
  /-- The opcode byte is 20 to 255 (30_encoding R83). -/
  | undefinedOpcode (op : Byte)
  /-- The bytes end before the instruction does; `consumed` bytes belong to fetches that were complete (a word of which
  only one byte is there is not fetched at all, 40_loop R105). -/
  | truncated (consumed : Nat)
deriving DecidableEq, Repr

/-- Read the operands that a format asks for, in encoding order (30_encoding R72, R73). -/
def decodeOperands : Shape → List Byte → Except DecodeError (Instr × List Byte)
  | .n i, bs => .ok (i, bs)
  | .r f, p :: bs => .ok (f p, bs)
  | .r _, [] => .error (.truncated 1)
  | .rr f, p :: q :: bs => .ok (f p q, bs)
  | .rr _, [_] => .error (.truncated 2)
  | .rr _, [] => .error (.truncated 1)
  | .rw f, p :: hi :: lo :: bs => .ok (f p (joinBytes hi lo), bs)
  | .rw _, [_, _] => .error (.truncated 2)
  | .rw _, [_] => .error (.truncated 2)
  | .rw _, [] => .error (.truncated 1)
  | .w f, hi :: lo :: bs => .ok (f (joinBytes hi lo), bs)
  | .w _, [_] => .error (.truncated 1)
  | .w _, [] => .error (.truncated 1)

/-- Decode the first instruction of a byte sequence; the bytes after it are returned (30_encoding R70, R71). -/
def decode : List Byte → Except DecodeError (Instr × List Byte)
  | [] => .error (.truncated 0)
  | op :: bs =>
    match opcodeTable op with
    | none => .error (.undefinedOpcode op)
    | some shape => decodeOperands shape bs

/-! ### Lengths and the encoder -/

/-- Length in bytes of format N (30_encoding R72). -/
def lenN : Nat := 1
/-- Length in bytes of format R. -/
def lenR : Nat := 2
/-- Length in bytes of format RR. -/
def lenRR : Nat := 3
/-- Length in bytes of format RW. -/
def lenRW : Nat := 4
/-- Length in bytes of format W. -/
def lenW : Nat := 3

/-- The "length" column of the opcode table (30_encoding R80). -/
def Instr.length : Instr → Nat
  | .push _ => lenR
  | .movMrR _ _ => lenRR
  | .movMrM _ _ => lenRW
  | .movMrC _ _ => lenRW
  | .movRR _ _ => lenRR
  | .movRM _ _ => lenRW
  | .movRC _ _ => lenRW
  | .movRMr _ _ => lenRR
  | .subRR _ _ => lenRR
  | .subRC _ _ => lenRW
  | .addRR _ _ => lenRR
  | .addRC _ _ => lenRW
  | .cmp _ _ => lenRR
  | .flg _ _ => lenRR
  | .jnz _ _ => lenRW
  | .jmp _ => lenW
  | .call _ => lenR
  | .pop _ => lenR
  | .ret => lenN
  | .hlt => lenN

/-- Bytes of format R. -/
def encR (op p : Byte) : List Byte := [op, p]
/-- Bytes of format RR. -/
def encRR (op p q : Byte) : List Byte := [op, p, q]
/-- Bytes of format RW: the word high byte first. -/
def encRW (op p : Byte) (w : Word) : List Byte := [op, p, hiByte w, loByte w]
/-- Bytes of format W. -/
def encW (op : Byte) (w : Word) : List Byte := [op, hiByte w, loByte w]

/-- The bytes of an instruction, lowest address first (30_encoding R72, R80). -/
def encode : Instr → List Byte
  | .push r => encR 0 r
  | .movMrR a s => encRR 1 a s
  | .movMrM a m => encRW 2 a m
  | .movMrC a c => encRW 3 a c
  | .movRR d s => encRR 4 d s
  | .movRM d m => encRW 5 d m
  | .movRC d c => encRW 6 d c
  | .movRMr d a => encRR 7 d a
  | .subRR d s => encRR 8 d s
  | .subRC d c => encRW 9 d c
  | .addRR d s => encRR 10 d s
  | .addRC d c => encRW 11 d c
  | .cmp a b => encRR 12 a b
  | .flg d j => encRR 13 d j
  | .jnz r m => encRW 14 r m
  | .jmp m => encW 15 m
  | .call a => encR 16 a
  | .pop r => encR 17 r
  | .ret => [18]
  | .hlt => [19]

/-- The operand byte of a legal register or flag index (30_encoding R74, R75). -/
def idxByte (i : Fin 16) : Byte := BitVec.ofNat 8 i.val

/-! ### Words numbered as the opcode table numbers them -/

/-- Length in bytes of the longest instruction (30_encoding R70). -/
def maxLength : Nat := 4

/-- The bytes of a table word, lowest address first: bit 0 is the least significant bit of the first byte and the second
byte is bits 15 to 8; every bit at `nbits` or above is 0. -/
def tableBytes (nbits w : Nat) : List Byte :=
  (List.range maxLength).map fun k => BitVec.ofNat 8 ((w % 2 ^ nbits) / 2 ^ (8 * k))

/-- The instruction the decoder reads from a table word. -/
def decodeTableWord (nbits w : Nat) : Option Instr :=
  match decode (tableBytes nbits w) with
  | .ok (i, _) => some i
  | .error _ => none

end Sys2Proof
end

