-- ==== Sys2Proof/Config.lean ====
section
/-! DEFINITION. What is fixed for a machine: the bounds of the one parameter N and the N of `State.reset`.
The machine is deterministic (70_reset_and_hazards R254), so there is no free value here. -/

namespace Sys2Proof.Config

/-- The least memory size (00_scope R5). -/
def minMemSize : Nat := 1

/-- The greatest memory size (00_scope R5): N fits the 16-bit stack pointer. -/
def maxMemSize : Nat := 65535

/-- The memory size of `State.reset`. DESIGN CHOICE (log 1): the spec leaves N open between the two bounds
(00_scope R5, D1); unsafe: a statement that rests on this number holds of this N only.
Every meaning reads N from the state, and `State.construct` takes any N. -/
def resetMemSize : Nat := 65535

end Sys2Proof.Config
end

