-- ==== Sys2Proof/Machine/State.lean ====
section
/-! DEFINITION. The state of one machine as plain data, the reasons a step can stop, and the state after construction. -/

namespace Sys2Proof.Machine

/-- Memory as (address, byte) pairs in ONE canonical form: addresses strictly rising, no byte 0 listed
(`Memory.wf` in Ops.lean). An address that is not listed reads as 0 (10_state R34). -/
abbrev Memory := List Host.Cell

/-- What kind of access a memory fault was (10_state R30). -/
inductive Access where
  /-- an instruction-stream fetch -/
  | fetch
  /-- a data read -/
  | read
  /-- a data write -/
  | write
  /-- no access: the other five kinds of fault -/
  | none
deriving DecidableEq, Repr

/-- The six kinds of fault (60_exceptions R201). -/
inductive FaultKind where
  /-- code 1 (R202): bytes of an access not all inside `[0, N)` -/
  | outOfRangeMemoryAccess
  /-- code 2 (R203): opcode byte 20 to 255 -/
  | undefinedOpcode
  /-- code 3 (R204): `PUSH` with the stack pointer below 2 -/
  | stackOverflow
  /-- code 4 (R205): `POP` with no whole word at the stack pointer -/
  | stackUnderflow
  /-- code 5 (R206): register-index byte above 15 -/
  | invalidRegisterIndex
  /-- code 6 (R207): flag-index byte above 15 -/
  | invalidFlagIndex
deriving DecidableEq, Repr

/-- What `raise K(info)` carries (60_exceptions R200, R201): the kind, the `value` and the `access` of the record. -/
structure Raise where
  kind   : FaultKind
  value  : Int
  access : Access
deriving DecidableEq, Repr

/-- The fault record (10_state R30). Its `code` is a function of `kind` (`FaultRecord.code` in Ops.lean, log 18). -/
structure FaultRecord where
  /-- which fault -/
  kind   : FaultKind
  /-- the faulting address, stack pointer, opcode byte or operand byte -/
  value  : Int
  /-- the kind of access of an out-of-range access, else `none` -/
  access : Access
  /-- the address of the opcode byte of the faulting instruction -/
  ipc    : Word
  /-- the program counter when the fault was raised -/
  pc     : Word
deriving DecidableEq, Repr

/-- The whole state of one machine (10_state, head and R29): `mem`, `x`, `f`, `pc`, `fault`; and the parameter N, which
construction fixes and no operation changes (00_scope R5). -/
structure State where
  /-- N, the number of bytes of memory (00_scope R5) -/
  memSize : Nat
  /-- `mem[0..N-1]` (10_state R26) -/
  mem     : Memory
  /-- `x[0]` to `x[15]` (10_state R10) -/
  regs    : Vector Word 16
  /-- `f[0]` to `f[15]` (10_state R21) -/
  flags   : Vector Bool 16
  /-- the address of the next byte to fetch (10_state R17). 16 bits hold every value it takes: DEDUCED (log 13); safe. -/
  pc      : Word
  /-- the fault record, set by the first raise and never cleared (10_state R30, R31) -/
  fault   : Option FaultRecord
deriving DecidableEq, Repr

/-- The three run states (10_state R32); which one a state is in is computed (`State.runState` in Flags.lean). -/
inductive RunState where
  /-- `fault ≠ none` -/
  | faulted
  /-- `fault = none` and `f[5] = 1` -/
  | running
  /-- `fault = none` and `f[5] = 0` -/
  | halted
deriving DecidableEq, Repr

/-- Why a step has no next state. A fault of the SPEC is not one of these: it is a next state that holds the record
(log 8). Both are safe: no step of the machine exists there (10_state R32), so nothing is claimed of one. -/
inductive Fault where
  /-- Raised by `step` alone, on a Halted machine (`fault = none`, `f[5] = 0`): the loop has ended (40_loop R101, R103)
  and only the host's `Load`, `Run` and `Snapshot` are left. Safe. -/
  | machineHalted
  /-- Raised by `step` alone, on a Faulted machine, with its record: it is non-resumable (10_state R31, R32). Safe. -/
  | machineFaulted (record : FaultRecord)
deriving DecidableEq, Repr

/-- Why an instruction has no meaning in the model. -/
inductive Refusal where
  /-- The instruction of this mnemonic is not modelled. No arm of `exec` answers it. Safe. -/
  | notModelled (mnemonic : String)
deriving DecidableEq, Repr

/-- What a step, and a meaning, answers. -/
abbrev Result := Host.Outcome State Fault Refusal

/-- `Construct(N)` (70_reset_and_hazards R240): memory all 0 (10_state R34), `x[13]` is N and every other register 0
(R35), every flag 0 (R36), `pc` 0 (R37), no fault (R38).
The zeros of the fifteen registers, the flags and `pc` are DESIGN CHOICES of the spec (D4, D5, D6; logs 2, 3, 4);
unsafe: a proof can lean on them. -/
def State.construct (n : Nat) : State where
  memSize := n
  mem     := []
  regs    := (Vector.replicate 16 0).set 13 (BitVec.ofNat 16 n)
  flags   := Vector.replicate 16 false
  pc      := 0
  fault   := .none

/-- The machine right after reset, which is construction (70_reset_and_hazards R240), with the N that `Config` names. -/
def State.reset : State := State.construct Config.resetMemSize

end Sys2Proof.Machine
end

