-- ==== Sys2Proof/Machine/Values.lean ====
section
/-! DEFINITION. The two readings of a 16-bit value, truncation, and the machine's sum and difference
(00_scope section 5.1, 43_arithmetic R154). -/

namespace Sys2Proof.Machine

/-- `zext(v)`: the value read as unsigned, 0 to 65535 (00_scope 5.1). -/
def zext (v : Word) : Int := (v.toNat : Int)

/-- `sext(v)`: the value read as two's complement, -32768 to 32767 (00_scope 5.1).
PRESUMED (G2 of 93_implementation_defined.md, log 20); unsafe: the source names the representation without defining it. -/
def sext (v : Word) : Int := if v.toNat < 32768 then (v.toNat : Int) else (v.toNat : Int) - 65536

/-- `trunc16(n)`: the integer reduced modulo 65536 (00_scope 5.1).
Every computed register value goes through it: DESIGN CHOICE of the spec (D2, log 14); unsafe against the reference program. -/
def trunc16 (n : Int) : Word := BitVec.ofInt 16 n

/-- The sum that `ADD` stores (43_arithmetic R152, R153, R154). -/
def addWords (u v : Word) : Word := trunc16 (zext u + zext v)

/-- The difference that `SUB` stores (43_arithmetic R150, R151, R154). -/
def subWords (u v : Word) : Word := trunc16 (zext u - zext v)

end Sys2Proof.Machine
end

