-- ==== Sys2Proof/Machine/Ops.lean ====
section
/-! DEFINITION. The named operations over memory, registers and the program counter, and raising a fault. -/

namespace Sys2Proof.Machine

/-! ### Memory as data -/

/-- The byte at an address; an address that is not listed reads as 0 (10_state R34). -/
def Memory.read : Memory → Nat → Byte
  | [], _ => 0
  | (k, b) :: m, a => if a = k then b else Memory.read m a

/-- Put an entry in its place in the rising order, instead of one at the same address. -/
def Memory.insert : Memory → Nat → Byte → Memory
  | [], a, v => [(a, v)]
  | (k, b) :: m, a, v =>
    if a < k then (a, v) :: (k, b) :: m
    else if a = k then (a, v) :: m
    else (k, b) :: Memory.insert m a v

/-- Store one byte, keeping the canonical form: storing 0 takes the entry out. -/
def Memory.write (m : Memory) (a : Nat) (v : Byte) : Memory :=
  if v = 0 then m.filter (fun c => decide (c.1 ≠ a)) else Memory.insert m a v

/-- Store consecutive bytes from an address. -/
def Memory.writeBytes (m : Memory) (a : Nat) : List Byte → Memory
  | [] => m
  | b :: bs => Memory.writeBytes (Memory.write m a b) (a + 1) bs

/-- Addresses rise strictly from `lo` on and no byte is 0. -/
def Memory.wfFrom : Nat → Memory → Bool
  | _, [] => true
  | lo, (k, b) :: m => decide (lo ≤ k) && decide (b ≠ 0) && Memory.wfFrom (k + 1) m

/-- The canonical form: addresses strictly rising, no entry equal to what an unlisted address reads as. -/
def Memory.wf (m : Memory) : Bool := Memory.wfFrom 0 m

/-- Every listed address is inside `[0, n)` (10_state R26). -/
def Memory.below (n : Nat) (m : Memory) : Bool := m.all fun c => decide (c.1 < n)

/-! ### The memory unit (20_memory) -/

/-- `mem[a]`, for claims and for the checked accesses below. -/
def State.byteAt (s : State) (a : Nat) : Byte := s.mem.read a

/-- All `n` bytes from `a` lie inside `[0, N)`; computed in the unbounded integers (20_memory R43). -/
def State.inRange (s : State) (a : Int) (n : Nat) : Bool := decide (0 ≤ a ∧ a + n ≤ s.memSize)

/-- The fault of an access at `a` (60_exceptions R202). -/
def outOfRange (a : Int) (k : Access) : Raise := ⟨.outOfRangeMemoryAccess, a, k⟩

/-- `CheckRange(a, n, kind)` (20_memory R43). -/
def State.checkRange (s : State) (a : Int) (n : Nat) (k : Access) : Except Raise Unit :=
  if s.inRange a n then .ok () else .error (outOfRange a k)

/-- `MemRead(a, 1)` (20_memory R44). -/
def State.readByte (s : State) (a : Int) (k : Access) : Except Raise Byte := do
  s.checkRange a 1 k
  pure (s.byteAt a.toNat)

/-- The word `mem[a] ++ mem[a+1]`, big-endian (20_memory R40). -/
def State.wordAt (s : State) (a : Nat) : Word := joinBytes (s.byteAt a) (s.byteAt (a + 1))

/-- `MemRead(a, 2)` (20_memory R45). -/
def State.readWord (s : State) (a : Int) (k : Access) : Except Raise Word := do
  s.checkRange a 2 k
  pure (s.wordAt a.toNat)

/-- Put a word at `a`: the high byte at `a`, the low byte at `a + 1` (20_memory R40). -/
def State.putWord (s : State) (a : Nat) (v : Word) : State :=
  { s with mem := (s.mem.write a (hiByte v)).write (a + 1) (loByte v) }

/-- `MemWrite(a, 2, v)` (20_memory R46): the only write of memory an instruction makes (R47; word stores of opcodes 1 and 3
too: DEDUCED, log 19; unsafe). -/
def State.writeWord (s : State) (a : Int) (v : Word) : Except Raise State := do
  s.checkRange a 2 .write
  pure (s.putWord a.toNat v)

/-! ### Registers and the program counter (10_state) -/

/-- `x[i]` (10_state R10). -/
def State.reg (s : State) (i : Fin 16) : Word := s.regs[i]

/-- `x[i] <- v`; no register is hard-wired and no other register changes (10_state R11). -/
def State.setReg (s : State) (i : Fin 16) (v : Word) : State := { s with regs := s.regs.set i v }

/-- The index of the stack pointer (10_state R12). -/
def spIdx : Fin 16 := 13

/-- The index of the link register (10_state R13). -/
def lrIdx : Fin 16 := 11

/-- `pc <- t` (10_state R18). -/
def State.setPc (s : State) (t : Word) : State := { s with pc := t }

/-- The advance of `pc` by fetches of `n` bytes that were read (10_state R18). In a state that `step` reaches,
`pc + n ≤ N ≤ 65535`, so nothing wraps (10_state R19): DEDUCED (log 13); safe. -/
def State.advance (s : State) (n : Nat) : State := s.setPc (s.pc + BitVec.ofNat 16 n)

/-! ### Faults (60_exceptions) -/

/-- The numeric code of a kind (60_exceptions R201). DESIGN CHOICE of the spec (D11, log 18); safe: the kind says the same. -/
def FaultKind.code : FaultKind → Nat
  | .outOfRangeMemoryAccess => 1
  | .undefinedOpcode => 2
  | .stackOverflow => 3
  | .stackUnderflow => 4
  | .invalidRegisterIndex => 5
  | .invalidFlagIndex => 6

/-- The `code` field of a fault record (10_state R30). -/
def FaultRecord.code (r : FaultRecord) : Nat := r.kind.code

/-- TAKING A FAULT, the machine's only exception: the record is written, with `ipc` the address of the faulting
instruction and `pc` as the completed fetches left it, and NOTHING else changes (60_exceptions R200, R214; 10_state R30,
R31). There is no return from it (R216): no operation of the model clears `fault`. -/
def State.raise (s : State) (ipc : Word) (r : Raise) : State :=
  { s with fault := some { kind := r.kind, value := r.value, access := r.access, ipc := ipc, pc := s.pc } }

/-- Phases 2 to 4 of an instruction of `len` bytes (40_loop R109), in a state whose `pc` is the instruction's address.
`effect` runs with `pc` after the instruction; if it raises, only the advance of `pc` and the record remain.
That nothing else is committed is a DESIGN CHOICE of the spec (D13, log 9); unsafe: the source allows partial effects. -/
def State.execute (s : State) (len : Nat) (effect : State → Except Raise State) : Result :=
  match effect (s.advance len) with
  | .ok t => .next t
  | .error r => .next ((s.advance len).raise s.pc r)

/-- Raise `r` unless the condition holds. -/
def ensure (c : Prop) [Decidable c] (r : Raise) : Except Raise Unit := if c then .ok () else .error r

end Sys2Proof.Machine
end

