-- ==== Sys2Proof/Machine/Flags.lean ====
section
/-! DEFINITION. The flag slots, the outcome of a comparison, and the run state, which is read from them. -/

namespace Sys2Proof.Machine

/-- `f[j]` (10_state R21). -/
def State.flag (s : State) (j : Fin 16) : Bool := s.flags[j]

/-- `f[j] <- b`; no other slot changes (10_state R21). -/
def State.setFlag (s : State) (j : Fin 16) (b : Bool) : State := { s with flags := s.flags.set j b }

/-- Slot 0, less-than (10_state R22). -/
def ltSlot : Fin 16 := 0
/-- Slot 2, greater-than (10_state R22). -/
def gtSlot : Fin 16 := 2
/-- Slot 4, equal (10_state R22). -/
def eqSlot : Fin 16 := 4
/-- Slot 5, the running flag (10_state R24). -/
def runSlot : Fin 16 := 5

/-- The outcome of comparing two words as signed numbers, recorded in slots 0, 2 and 4 (44_compare_flags R160).
All three are ASSIGNED, cleared as well as set: DESIGN CHOICE of the spec (D7, log 5); unsafe: the source says only "set". -/
def State.compare (s : State) (u v : Word) : State :=
  ((s.setFlag ltSlot (decide (sext u < sext v))).setFlag gtSlot (decide (sext u > sext v))).setFlag eqSlot
    (decide (sext u = sext v))

/-- The word that `FLG` writes: 0x0000 or 0x0001 (44_compare_flags R161). -/
def flagWord (b : Bool) : Word := if b then 1 else 0

/-- The run state, a function of `fault` and `f[5]` (10_state R32). -/
def State.runState (s : State) : RunState :=
  match s.fault with
  | some _ => .faulted
  | none => if s.flag runSlot then .running else .halted

end Sys2Proof.Machine
end

