-- ==== Sys2Proof/Machine/Operands.lean ====
section
/-! DEFINITION. The operand forms (42_mov R137): register, immediate, absolute word, register-indirect word; and the
validation of index bytes (40_loop R106, R107). -/

namespace Sys2Proof.Machine

/-- The index a byte stands for, if it is 0 to 15 (30_encoding R74). -/
def idxOf (b : Byte) : Option (Fin 16) := if h : b.toNat < 16 then some ⟨b.toNat, h⟩ else none

/-- `RegIdx(b)` (40_loop R106). A fault above 15, no masking: DESIGN CHOICE of the spec (D8, log 7);
safe: the machine stops where the source is silent. -/
def regIdx (b : Byte) : Except Raise (Fin 16) :=
  match idxOf b with
  | some i => .ok i
  | none => .error ⟨.invalidRegisterIndex, b.toNat, .none⟩

/-- `FlagIdx(b)` (40_loop R107). DESIGN CHOICE of the spec (D8, log 7); safe, as for `regIdx`. -/
def flagIdx (b : Byte) : Except Raise (Fin 16) :=
  match idxOf b with
  | some j => .ok j
  | none => .error ⟨.invalidFlagIndex, b.toNat, .none⟩

/-- Effective address of `[m]`: the operand itself, unsigned (42_mov R137, 30_encoding R76). -/
def eaAbs (m : Word) : Int := zext m

/-- Effective address of `[r]`: the register read as unsigned (42_mov R137, 00_scope R9). -/
def State.eaReg (s : State) (a : Fin 16) : Int := zext (s.reg a)

/-- The value of `[m]` or `[r]` as a source: one word read at the effective address (42_mov R137). -/
def State.load (s : State) (ea : Int) : Except Raise Word := s.readWord ea .read

/-- `[r]` as a destination: one word written at the effective address (42_mov R137). -/
def State.store (s : State) (ea : Int) (v : Word) : Except Raise State := s.writeWord ea v

/-- The stack pointer read as an unsigned address (10_state R12). -/
def State.sp (s : State) : Int := zext (s.reg spIdx)

/-- The guard of `PUSH`: `zext(x[13]) >= 2` (41_stack R120, R123).
The exact bound is a DESIGN CHOICE of the spec (D15, log 12); safe: outside it the machine stops. -/
def State.pushGuard (s : State) : Except Raise Unit := ensure (2 ≤ s.sp) ⟨.stackOverflow, s.sp, .none⟩

/-- The guard of `POP`: `zext(x[13]) + 2 <= N` (41_stack R121, R123). DESIGN CHOICE of the spec (D15, log 12); safe. -/
def State.popGuard (s : State) : Except Raise Unit :=
  ensure (s.sp + 2 ≤ s.memSize) ⟨.stackUnderflow, s.sp, .none⟩

end Sys2Proof.Machine
end

