-- ==== Sys2Proof/Machine/Arith.lean ====
section
/-! DEFINITION. `SUB` and `ADD` (43_arithmetic): wrap modulo 65536 (R154), no flag (R155). -/

namespace Sys2Proof.Machine

/-- `SUB d,s` (43_arithmetic R150). -/
def effSubRR (p q : Byte) (t : State) : Except Raise State := do
  let d ← regIdx p
  let r ← regIdx q
  pure (t.setReg d (subWords (t.reg d) (t.reg r)))

/-- The instruction whose effect is `effSubRR`. -/
def execSubRR (p q : Byte) (s : State) : Result := s.execute lenRR (effSubRR p q)

/-- `SUB d,c` (43_arithmetic R151). -/
def effSubRC (p : Byte) (c : Word) (t : State) : Except Raise State := do
  let d ← regIdx p
  pure (t.setReg d (subWords (t.reg d) c))

/-- The instruction whose effect is `effSubRC`. -/
def execSubRC (p : Byte) (c : Word) (s : State) : Result := s.execute lenRW (effSubRC p c)

/-- `ADD d,s` (43_arithmetic R152). -/
def effAddRR (p q : Byte) (t : State) : Except Raise State := do
  let d ← regIdx p
  let r ← regIdx q
  pure (t.setReg d (addWords (t.reg d) (t.reg r)))

/-- The instruction whose effect is `effAddRR`. -/
def execAddRR (p q : Byte) (s : State) : Result := s.execute lenRR (effAddRR p q)

/-- `ADD d,c` (43_arithmetic R153). -/
def effAddRC (p : Byte) (c : Word) (t : State) : Except Raise State := do
  let d ← regIdx p
  pure (t.setReg d (addWords (t.reg d) c))

/-- The instruction whose effect is `effAddRC`. -/
def execAddRC (p : Byte) (c : Word) (s : State) : Result := s.execute lenRW (effAddRC p c)

end Sys2Proof.Machine
end

