-- ==== Sys2Proof/Machine/Compare.lean ====
section
/-! DEFINITION. `CMP` and `FLG` (44_compare_flags). -/

namespace Sys2Proof.Machine

/-- `CMP a,b` (44_compare_flags R160): slots 0, 2 and 4 only; no register, and never slot 1 or 3. -/
def effCmp (p q : Byte) (t : State) : Except Raise State := do
  let a ← regIdx p
  let b ← regIdx q
  pure (t.compare (t.reg a) (t.reg b))

/-- The instruction whose effect is `effCmp`. -/
def execCmp (p q : Byte) (s : State) : Result := s.execute lenRR (effCmp p q)

/-- `FLG d,j` (44_compare_flags R161). The flag index is one byte: DESIGN CHOICE of the spec (D9, log 6); unsafe. -/
def effFlg (p q : Byte) (t : State) : Except Raise State := do
  let d ← regIdx p
  let j ← flagIdx q
  pure (t.setReg d (flagWord (t.flag j)))

/-- The instruction whose effect is `effFlg`. -/
def execFlg (p q : Byte) (s : State) : Result := s.execute lenRR (effFlg p q)

end Sys2Proof.Machine
end

