-- ==== Sys2Proof/Machine/Control.lean ====
section
/-! DEFINITION. `JNZ`, `JMP`, `CALL` and `RET` (45_control_flow): absolute targets, not checked when assigned (R174, R175). -/

namespace Sys2Proof.Machine

/-- `JNZ r,m` (45_control_flow R170). -/
def effJnz (p : Byte) (m : Word) (t : State) : Except Raise State := do
  let r ← regIdx p
  pure (if t.reg r ≠ 0 then t.setPc m else t)

/-- The instruction whose effect is `effJnz`. -/
def execJnz (p : Byte) (m : Word) (s : State) : Result := s.execute lenRW (effJnz p m)

/-- `JMP m` (45_control_flow R171). -/
def effJmp (m : Word) (t : State) : Except Raise State := pure (t.setPc m)

/-- The instruction whose effect is `effJmp`. -/
def execJmp (m : Word) (s : State) : Result := s.execute lenW (effJmp m)

/-- `CALL a` (45_control_flow R172): the return address is the `pc` after the operand byte, and the target register is
read after `x[11]` is written. That order is a DESIGN CHOICE of the spec (D14, log 11); unsafe for `CALL r11` alone. -/
def effCall (p : Byte) (t : State) : Except Raise State := do
  let a ← regIdx p
  let u := t.setReg lrIdx (trunc16 (zext t.pc))
  pure (u.setPc (u.reg a))

/-- The instruction whose effect is `effCall`. -/
def execCall (p : Byte) (s : State) : Result := s.execute lenR (effCall p)

/-- `RET` (45_control_flow R173). -/
def effRet (t : State) : Except Raise State := pure (t.setPc (t.reg lrIdx))

/-- The instruction whose effect is `effRet`. -/
def execRet (s : State) : Result := s.execute lenN effRet

end Sys2Proof.Machine
end

