-- ==== Sys2Proof/Machine/Mov.lean ====
section
/-! DEFINITION. The seven `MOV` instructions (42_mov). Every memory access is one word; none writes a flag. -/

namespace Sys2Proof.Machine

/-- `MOV [a],s` (42_mov R130). -/
def effMovMrR (p q : Byte) (t : State) : Except Raise State := do
  let a ← regIdx p
  let r ← regIdx q
  t.store (t.eaReg a) (t.reg r)

/-- The instruction whose effect is `effMovMrR`. -/
def execMovMrR (p q : Byte) (s : State) : Result := s.execute lenRR (effMovMrR p q)

/-- `MOV [a],[m]` (42_mov R131): both ranges are checked, the read first, and the whole word is read before any byte is
written. -/
def effMovMrM (p : Byte) (m : Word) (t : State) : Except Raise State := do
  let a ← regIdx p
  t.checkRange (eaAbs m) 2 .read
  t.checkRange (t.eaReg a) 2 .write
  let v ← t.load (eaAbs m)
  t.store (t.eaReg a) v

/-- The instruction whose effect is `effMovMrM`. -/
def execMovMrM (p : Byte) (m : Word) (s : State) : Result := s.execute lenRW (effMovMrM p m)

/-- `MOV [a],c` (42_mov R132). -/
def effMovMrC (p : Byte) (c : Word) (t : State) : Except Raise State := do
  let a ← regIdx p
  t.store (t.eaReg a) c

/-- The instruction whose effect is `effMovMrC`. -/
def execMovMrC (p : Byte) (c : Word) (s : State) : Result := s.execute lenRW (effMovMrC p c)

/-- `MOV d,s` (42_mov R133). -/
def effMovRR (p q : Byte) (t : State) : Except Raise State := do
  let d ← regIdx p
  let r ← regIdx q
  pure (t.setReg d (t.reg r))

/-- The instruction whose effect is `effMovRR`. -/
def execMovRR (p q : Byte) (s : State) : Result := s.execute lenRR (effMovRR p q)

/-- `MOV d,[m]` (42_mov R134). -/
def effMovRM (p : Byte) (m : Word) (t : State) : Except Raise State := do
  let d ← regIdx p
  let v ← t.load (eaAbs m)
  pure (t.setReg d v)

/-- The instruction whose effect is `effMovRM`. -/
def execMovRM (p : Byte) (m : Word) (s : State) : Result := s.execute lenRW (effMovRM p m)

/-- `MOV d,c` (42_mov R135). -/
def effMovRC (p : Byte) (c : Word) (t : State) : Except Raise State := do
  let d ← regIdx p
  pure (t.setReg d c)

/-- The instruction whose effect is `effMovRC`. -/
def execMovRC (p : Byte) (c : Word) (s : State) : Result := s.execute lenRW (effMovRC p c)

/-- `MOV d,[a]` (42_mov R136): the address is read before the register is written. -/
def effMovRMr (p q : Byte) (t : State) : Except Raise State := do
  let d ← regIdx p
  let a ← regIdx q
  let v ← t.load (t.eaReg a)
  pure (t.setReg d v)

/-- The instruction whose effect is `effMovRMr`. -/
def execMovRMr (p q : Byte) (s : State) : Result := s.execute lenRR (effMovRMr p q)

end Sys2Proof.Machine
end

