-- ==== Sys2Proof/Machine/Stack.lean ====
section
/-! DEFINITION. `PUSH` and `POP` (41_stack). The commit reads left to right, each read seeing the writes before it:
DESIGN CHOICE of the spec (D14, log 11); unsafe for `PUSH r13` and `POP r13`, immaterial for every other operand. -/

namespace Sys2Proof.Machine

/-- `PUSH r` (41_stack R120): the register is read after the stack pointer is lowered. -/
def effPush (p : Byte) (t : State) : Except Raise State := do
  let r ← regIdx p
  t.pushGuard
  t.checkRange (t.sp - 2) 2 .write
  let u := t.setReg spIdx (trunc16 (t.sp - 2))
  u.writeWord (t.sp - 2) (u.reg r)

/-- The instruction whose effect is `effPush`. -/
def execPush (p : Byte) (s : State) : Result := s.execute lenR (effPush p)

/-- `POP r` (41_stack R121): the stack pointer is read again after the register is written. -/
def effPop (p : Byte) (t : State) : Except Raise State := do
  let r ← regIdx p
  t.popGuard
  let v ← t.readWord t.sp .read
  let u := t.setReg r v
  pure (u.setReg spIdx (trunc16 (u.sp + 2)))

/-- The instruction whose effect is `effPop`. -/
def execPop (p : Byte) (s : State) : Result := s.execute lenR (effPop p)

end Sys2Proof.Machine
end

