-- ==== Sys2Proof/Machine/System.lean ====
section
/-! DEFINITION. `HLT`, the only system instruction (46_system R180, R181). -/

namespace Sys2Proof.Machine

/-- `HLT` (46_system R180): the running flag is cleared; the loop ends at its next test (40_loop R103). -/
def effHlt (t : State) : Except Raise State := pure (t.setFlag runSlot false)

/-- The instruction whose effect is `effHlt`. -/
def execHlt (s : State) : Result := s.execute lenN effHlt

end Sys2Proof.Machine
end

