-- ==== Sys2Proof/Machine/Dispatch.lean ====
section
/-! DEFINITION. One arm per instruction: the case of 40_loop R102. -/

namespace Sys2Proof.Machine

/-- The meaning of an instruction in a state whose `pc` is the address of its opcode byte. -/
def exec (i : Instr) (s : State) : Host.Outcome State Fault Refusal :=
  match i with
  | .push r => Sys2Proof.Machine.execPush r s
  | .movMrR a r => Sys2Proof.Machine.execMovMrR a r s
  | .movMrM a m => Sys2Proof.Machine.execMovMrM a m s
  | .movMrC a c => Sys2Proof.Machine.execMovMrC a c s
  | .movRR d r => Sys2Proof.Machine.execMovRR d r s
  | .movRM d m => Sys2Proof.Machine.execMovRM d m s
  | .movRC d c => Sys2Proof.Machine.execMovRC d c s
  | .movRMr d a => Sys2Proof.Machine.execMovRMr d a s
  | .subRR d r => Sys2Proof.Machine.execSubRR d r s
  | .subRC d c => Sys2Proof.Machine.execSubRC d c s
  | .addRR d r => Sys2Proof.Machine.execAddRR d r s
  | .addRC d c => Sys2Proof.Machine.execAddRC d c s
  | .cmp a b => Sys2Proof.Machine.execCmp a b s
  | .flg d j => Sys2Proof.Machine.execFlg d j s
  | .jnz r m => Sys2Proof.Machine.execJnz r m s
  | .jmp m => Sys2Proof.Machine.execJmp m s
  | .call a => Sys2Proof.Machine.execCall a s
  | .pop r => Sys2Proof.Machine.execPop r s
  | .ret => Sys2Proof.Machine.execRet s
  | .hlt => Sys2Proof.Machine.execHlt s

end Sys2Proof.Machine
end

