-- ==== Sys2Proof/Machine/Fetch.lean ====
section
/-! DEFINITION. Fetching an instruction (40_loop R104, R105, R109 phase 1): the opcode byte, the table, then the operands in
encoding order. A fetch that raises leaves `pc` where the completed fetches left it, so the error carries that state. -/

namespace Sys2Proof.Machine

/-- The state at the raise, and what was raised. -/
abbrev FetchStop := State × Raise

/-- `Fetch8()` (40_loop R104). -/
def State.fetch8 (s : State) : Except FetchStop (Byte × State) :=
  match s.readByte (zext s.pc) .fetch with
  | .ok b => .ok (b, s.advance 1)
  | .error r => .error (s, r)

/-- `Fetch16()` (40_loop R105): no byte is consumed when only one is there. -/
def State.fetch16 (s : State) : Except FetchStop (Word × State) :=
  match s.readWord (zext s.pc) .fetch with
  | .ok w => .ok (w, s.advance 2)
  | .error r => .error (s, r)

/-- Fetch the operands that a format asks for, all of them before any is validated (40_loop R109;
DESIGN CHOICE of the spec, D12, log 10; safe for runs that do not fault). -/
def fetchOperands : Shape → State → Except FetchStop (Instr × State)
  | .n i, s => .ok (i, s)
  | .r f, s => do
    let (p, s) ← s.fetch8
    pure (f p, s)
  | .rr f, s => do
    let (p, s) ← s.fetch8
    let (q, s) ← s.fetch8
    pure (f p q, s)
  | .rw f, s => do
    let (p, s) ← s.fetch8
    let (w, s) ← s.fetch16
    pure (f p w, s)
  | .w f, s => do
    let (w, s) ← s.fetch16
    pure (f w, s)

/-- Fetch the instruction at `pc` (40_loop R102): an undefined opcode raises before any operand is fetched
(60_exceptions R203). -/
def State.fetchInstr (s : State) : Except FetchStop (Instr × State) := do
  let (op, s) ← s.fetch8
  match opcodeTable op with
  | none => .error (s, ⟨.undefinedOpcode, op.toNat, .none⟩)
  | some shape => fetchOperands shape s

/-- The bytes of memory from `pc` on, at most the longest instruction's and none at or beyond N. -/
def State.stream (s : State) : List Byte :=
  (List.range (min maxLength (s.memSize - s.pc.toNat))).map fun k => s.byteAt (s.pc.toNat + k)

end Sys2Proof.Machine
end

