-- ==== Sys2Proof/Machine/Step.lean ====
section
/-! DEFINITION. One Step (40_loop R102), enabled only in the Running state (10_state R32). -/

namespace Sys2Proof.Machine

/-- One Step. On a Running machine it always has a next state (40_loop R111): the instruction's, or the Faulted one.
Halted and Faulted machines have no Step: each stops under a name of its own (DESIGN CHOICE, log 8; safe). -/
def step (s : State) : Host.Outcome State Fault Refusal :=
  match s.fault with
  | some record => .fault (.machineFaulted record)
  | none =>
    if s.flag runSlot then
      match s.fetchInstr with
      | .ok (i, _) => exec i s
      | .error (t, r) => .next (t.raise s.pc r)
    else .fault .machineHalted

/-- `s` with one instruction of the opcode table placed at `pc` and the machine Running, so that the next `step` fetches
and runs it. It stands for the host's `Load` and `Run` (70_reset_and_hazards R243; log 15): the bytes of the table word are
stored at `pc` as far as memory reaches, and the entry action of `Run` sets `f[5]` (40_loop R100).
A fault record, which would stop the step, is dropped. It is no move of the machine. -/
def State.withFetchWord (s : State) (nbits w : Nat) : State :=
  let room := s.memSize - s.pc.toNat
  { s with
    mem := s.mem.writeBytes s.pc.toNat ((tableBytes nbits w).take room)
    flags := s.flags.set runSlot true
    fault := none }

end Sys2Proof.Machine
end

