-- ==== Sys2Proof/Machine/HostOps.lean ====
section
/-! DEFINITION. The host's moves (00_scope R8): Construct, Load, Run and Snapshot. None exists while the machine is Running
(20_memory R59, 70_reset_and_hazards R252). -/

namespace Sys2Proof.Machine

/-- Why a host move is turned away; the machine is then unchanged. -/
inductive HostError where
  /-- the machine is Running: the host has no move (93 U11) -/
  | machineRunning
  /-- the machine is Faulted: non-resumable (20_memory R59, 40_loop R113) -/
  | machineFaulted
  /-- a load would run past the end of memory, or start before it (20_memory R58) -/
  | pastEnd
  /-- the memory size is not 1 to 65535 (00_scope R5) -/
  | badMemSize
deriving DecidableEq, Repr

/-- `Construct(N)` (70_reset_and_hazards R240) for the sizes the spec describes (00_scope R5). -/
def hostConstruct (n : Nat) : Except HostError State :=
  if Config.minMemSize ≤ n ∧ n ≤ Config.maxMemSize then .ok (State.construct n) else .error .badMemSize

/-- `Load` and `Run` are allowed only on a Halted machine (20_memory R59, 40_loop R113; DESIGN CHOICES of the spec, D17 and
D18, log 17; safe). -/
def State.whenHalted (s : State) {α : Type} (k : Except HostError α) : Except HostError α :=
  match s.runState with
  | .halted => k
  | .running => .error .machineRunning
  | .faulted => .error .machineFaulted

/-- `Load(bytes, offset)` (20_memory R58): all or nothing. -/
def State.hostLoad (s : State) (bytes : List Byte) (offset : Int) : Except HostError State :=
  s.whenHalted <|
    if 0 ≤ offset ∧ offset + bytes.length ≤ s.memSize then
      .ok { s with mem := s.mem.writeBytes offset.toNat bytes }
    else .error .pastEnd

/-- The entry action of `Run(startAddress)` (40_loop R100): `pc` and `f[5]`, nothing else. -/
def State.runEntry (s : State) (start : Word) : Except HostError State :=
  s.whenHalted <| .ok ((s.setPc start).setFlag runSlot true)

/-- The loop of `Run` (40_loop R101), under fuel (R111; log 21): the state in which the loop test fails, or nothing if
`fuel` Steps were not enough. -/
def State.runLoop : Nat → State → Option State
  | 0, s => if s.runState = .running then none else some s
  | n + 1, s =>
    match s.runState with
    | .running =>
      match step s with
      | .next t => State.runLoop n t
      | .fault _ => none
      | .refused _ => none
    | .halted => some s
    | .faulted => some s

/-- `Run(startAddress)` (40_loop R100, R101). -/
def State.hostRun (s : State) (fuel : Nat) (start : Word) : Except HostError (Option State) :=
  match s.runEntry start with
  | .ok t => .ok (State.runLoop fuel t)
  | .error e => .error e

/-- `Snapshot()` (20_memory R60): the N bytes in address order; allowed when Halted or Faulted. -/
def State.hostSnapshot (s : State) : Except HostError (List Byte) :=
  match s.runState with
  | .running => .error .machineRunning
  | .halted => .ok ((List.range s.memSize).map s.byteAt)
  | .faulted => .ok ((List.range s.memSize).map s.byteAt)

end Sys2Proof.Machine
end

