-- ==== Sys2Proof/Safety.lean ====
section
/-! DEFINITION. The terms claims are stated in: the invariant of the machine, and what an instruction leaves unchanged. -/

namespace Sys2Proof.Machine

/-! ### The invariant -/

/-- The memory size is one the spec describes (00_scope R5), and memory is canonical and inside `[0, N)` (10_state R26). -/
def State.memLegal (s : State) : Prop :=
  Config.minMemSize ≤ s.memSize ∧ s.memSize ≤ Config.maxMemSize ∧ s.mem.wf = true ∧ s.mem.below s.memSize = true

/-- Slots 1, 3 and 6 to 15 stay 0 (10_state R22), and at most one of the comparison slots is set (44_compare_flags R160). -/
def State.flagsLegal (s : State) : Prop :=
  (∀ j : Fin 16, j ≠ ltSlot → j ≠ gtSlot → j ≠ eqSlot → j ≠ runSlot → s.flag j = false) ∧
  ¬(s.flag ltSlot = true ∧ s.flag gtSlot = true) ∧ ¬(s.flag ltSlot = true ∧ s.flag eqSlot = true) ∧
  ¬(s.flag gtSlot = true ∧ s.flag eqSlot = true)

/-- The `value` and `access` fields that go with each kind (60_exceptions R201 to R207), on a machine of `n` bytes. -/
def FaultRecord.fieldsLegal (n : Nat) (r : FaultRecord) : Prop :=
  match r.kind with
  | .outOfRangeMemoryAccess => r.access ≠ .none ∧ 0 ≤ r.value ∧ r.value ≤ 65535 ∧ (n : Int) < r.value + 2
  | .undefinedOpcode => r.access = .none ∧ 20 ≤ r.value ∧ r.value ≤ 255
  | .stackOverflow => r.access = .none ∧ 0 ≤ r.value ∧ r.value < 2
  | .stackUnderflow => r.access = .none ∧ r.value ≤ 65535 ∧ (n : Int) < r.value + 2
  | .invalidRegisterIndex => r.access = .none ∧ 16 ≤ r.value ∧ r.value ≤ 255
  | .invalidFlagIndex => r.access = .none ∧ 16 ≤ r.value ∧ r.value ≤ 255

/-- A recorded fault: the running flag is still 1 and `pc` is where the record says (10_state R31, 40_loop R114), at most
one instruction past the faulting one's opcode byte (10_state R30), and the fields fit the kind. -/
def State.faultLegal (s : State) : Prop :=
  ∀ r, s.fault = some r →
    s.flag runSlot = true ∧ r.pc = s.pc ∧ r.ipc.toNat ≤ r.pc.toNat ∧ r.pc.toNat ≤ r.ipc.toNat + maxLength ∧
    r.fieldsLegal s.memSize

/-- The invariant every step keeps. -/
def State.Legal (s : State) : Prop := s.memLegal ∧ s.flagsLegal ∧ s.faultLegal

/-! ### What is unchanged -/

/-- Every register outside the list reads as before. -/
def SameRegsExcept (s t : State) (l : List (Fin 16)) : Prop := ∀ i, i ∉ l → t.reg i = s.reg i

/-- Every flag slot outside the list reads as before. -/
def SameFlagsExcept (s t : State) (l : List (Fin 16)) : Prop := ∀ j, j ∉ l → t.flag j = s.flag j

/-- Every byte of memory reads as before. -/
def SameBytes (s t : State) : Prop := ∀ b, t.byteAt b = s.byteAt b

/-- Every byte of memory outside the word stored at `a` reads as before. -/
def SameBytesOutsideWord (s t : State) (a : Int) : Prop := ∀ b : Nat, (b : Int) < a ∨ a + 2 ≤ b → t.byteAt b = s.byteAt b

/-- The memory size never changes, and the fault record is either as before or written by this instruction with its own
address (10_state R30, R31). -/
def SameOrRaised (s t : State) : Prop :=
  t.memSize = s.memSize ∧ (t.fault = s.fault ∨ ∃ r, t.fault = some r ∧ r.ipc = s.pc ∧ r.pc = t.pc)

/-- A machine on which a Step is enabled (10_state R32). -/
def State.Running (s : State) : Prop := s.fault = none ∧ s.flag runSlot = true

/-- The state a fault of an instruction of `len` bytes leaves (60_exceptions R214): the advance of `pc` and the record. -/
def State.faultedAfter (s : State) (len : Nat) (kind : FaultKind) (value : Int) (access : Access) : State :=
  { s with
    pc := s.pc + BitVec.ofNat 16 len
    fault := some { kind := kind, value := value, access := access, ipc := s.pc, pc := s.pc + BitVec.ofNat 16 len } }

/-- What a completed instruction leaves: registers and flags outside the two lists, the memory size and the fault record. -/
def Frame (s t : State) (regs flags : List (Fin 16)) : Prop :=
  SameRegsExcept s t regs ∧ SameFlagsExcept s t flags ∧ t.memSize = s.memSize ∧ t.fault = s.fault

/-! ### Tables over the instructions -/

/-- The index operands in encoding order, each with the fault that a byte above 15 raises there (60_exceptions R206, R207). -/
def indexOperands : Instr → List (Byte × FaultKind)
  | .push r => [(r, .invalidRegisterIndex)]
  | .movMrR a r => [(a, .invalidRegisterIndex), (r, .invalidRegisterIndex)]
  | .movMrM a _ => [(a, .invalidRegisterIndex)]
  | .movMrC a _ => [(a, .invalidRegisterIndex)]
  | .movRR d r => [(d, .invalidRegisterIndex), (r, .invalidRegisterIndex)]
  | .movRM d _ => [(d, .invalidRegisterIndex)]
  | .movRC d _ => [(d, .invalidRegisterIndex)]
  | .movRMr d a => [(d, .invalidRegisterIndex), (a, .invalidRegisterIndex)]
  | .subRR d r => [(d, .invalidRegisterIndex), (r, .invalidRegisterIndex)]
  | .subRC d _ => [(d, .invalidRegisterIndex)]
  | .addRR d r => [(d, .invalidRegisterIndex), (r, .invalidRegisterIndex)]
  | .addRC d _ => [(d, .invalidRegisterIndex)]
  | .cmp a b => [(a, .invalidRegisterIndex), (b, .invalidRegisterIndex)]
  | .flg d j => [(d, .invalidRegisterIndex), (j, .invalidFlagIndex)]
  | .jnz r _ => [(r, .invalidRegisterIndex)]
  | .jmp _ => []
  | .call a => [(a, .invalidRegisterIndex)]
  | .pop r => [(r, .invalidRegisterIndex)]
  | .ret => []
  | .hlt => []

/-- The first index operand above 15: the one that is reported (60_exceptions R210). -/
def firstBadIndex (i : Instr) : Option (Byte × FaultKind) := (indexOperands i).find? fun c => decide (15 < c.1.toNat)

/-- The "instruction-stream fetches (in order)" column of the access table (20_memory R49): how many bytes each takes. -/
def fetchWidths : Instr → List Nat
  | .push _ => [1, 1]
  | .movMrR _ _ => [1, 1, 1]
  | .movMrM _ _ => [1, 1, 2]
  | .movMrC _ _ => [1, 1, 2]
  | .movRR _ _ => [1, 1, 1]
  | .movRM _ _ => [1, 1, 2]
  | .movRC _ _ => [1, 1, 2]
  | .movRMr _ _ => [1, 1, 1]
  | .subRR _ _ => [1, 1, 1]
  | .subRC _ _ => [1, 1, 2]
  | .addRR _ _ => [1, 1, 1]
  | .addRC _ _ => [1, 1, 2]
  | .cmp _ _ => [1, 1, 1]
  | .flg _ _ => [1, 1, 1]
  | .jnz _ _ => [1, 1, 2]
  | .jmp _ => [1, 2]
  | .call _ => [1, 1]
  | .pop _ => [1, 1]
  | .ret => [1]
  | .hlt => [1]

/-- The bytes that fetches of these widths consume when only `n` bytes are there: a fetch whose bytes are not all there
consumes none and is the last (40_loop R104, R105). -/
def completeFetches : List Nat → Nat → Nat
  | [], _ => 0
  | w :: ws, n => if w ≤ n then w + completeFetches ws (n - w) else 0

/-- The "writes" column of the register table (10_state R16). A byte above 15 names no register. -/
def writesRegs : Instr → List (Fin 16)
  | .push _ => [spIdx]
  | .movMrR _ _ => []
  | .movMrM _ _ => []
  | .movMrC _ _ => []
  | .movRR d _ => (idxOf d).toList
  | .movRM d _ => (idxOf d).toList
  | .movRC d _ => (idxOf d).toList
  | .movRMr d _ => (idxOf d).toList
  | .subRR d _ => (idxOf d).toList
  | .subRC d _ => (idxOf d).toList
  | .addRR d _ => (idxOf d).toList
  | .addRC d _ => (idxOf d).toList
  | .cmp _ _ => []
  | .flg d _ => (idxOf d).toList
  | .jnz _ _ => []
  | .jmp _ => []
  | .call _ => [lrIdx]
  | .pop r => (idxOf r).toList ++ [spIdx]
  | .ret => []
  | .hlt => []

/-- The flag slots an instruction writes (10_state R23). -/
def writesFlags : Instr → List (Fin 16)
  | .cmp _ _ => [ltSlot, gtSlot, eqSlot]
  | .hlt => [runSlot]
  | .push _ | .pop _ | .movMrR _ _ | .movMrM _ _ | .movMrC _ _ | .movRR _ _ | .movRM _ _ | .movRC _ _ | .movRMr _ _
  | .subRR _ _ | .subRC _ _ | .addRR _ _ | .addRC _ _ | .flg _ _ | .jnz _ _ | .jmp _ | .call _ | .ret => []

/-- The "data writes" column of the access table (20_memory R49): the address of the word an instruction stores, computed
in the state before it with the functions the meanings use; none for a form that stores nothing. -/
def storeAddress (i : Instr) (s : State) : Option Int :=
  match i with
  | .push _ => some (s.sp - 2)
  | .movMrR a _ => (idxOf a).map s.eaReg
  | .movMrM a _ => (idxOf a).map s.eaReg
  | .movMrC a _ => (idxOf a).map s.eaReg
  | .pop _ | .movRR _ _ | .movRM _ _ | .movRC _ _ | .movRMr _ _ | .subRR _ _ | .subRC _ _ | .addRR _ _ | .addRC _ _
  | .cmp _ _ | .flg _ _ | .jnz _ _ | .jmp _ | .call _ | .ret | .hlt => none

/-- Every byte reads as before but those of the word the instruction stores. -/
def SameBytesOutsideStore (i : Instr) (s t : State) : Prop :=
  (storeAddress i s = none → SameBytes s t) ∧ ∀ a, storeAddress i s = some a → SameBytesOutsideWord s t a

/-- The instructions that assign `pc` (10_state R18). -/
def assignsPc : Instr → Bool
  | .jnz _ _ | .jmp _ | .call _ | .ret => true
  | .push _ | .pop _ | .movMrR _ _ | .movMrM _ _ | .movMrC _ _ | .movRR _ _ | .movRM _ _ | .movRC _ _ | .movRMr _ _
  | .subRR _ _ | .subRC _ _ | .addRR _ _ | .addRC _ _ | .cmp _ _ | .flg _ _ | .hlt => false

/-- The instruction by fault matrix (60_exceptions R208), less its fetch column: which kind and access an instruction's own
phases can raise. -/
def mayRaise (i : Instr) (k : FaultKind) (a : Access) : Bool :=
  let reg := k == .invalidRegisterIndex && a == .none
  let rd := k == .outOfRangeMemoryAccess && a == .read
  let wr := k == .outOfRangeMemoryAccess && a == .write
  match i with
  | .push _ => reg || wr || (k == .stackOverflow && a == .none)
  | .movMrR _ _ => reg || wr
  | .movMrM _ _ => reg || rd || wr
  | .movMrC _ _ => reg || wr
  | .movRM _ _ => reg || rd
  | .movRMr _ _ => reg || rd
  | .movRR _ _ | .movRC _ _ | .subRR _ _ | .subRC _ _ | .addRR _ _ | .addRC _ _ | .cmp _ _ | .jnz _ _ | .call _ => reg
  | .flg _ _ => reg || (k == .invalidFlagIndex && a == .none)
  | .pop _ => reg || (k == .stackUnderflow && a == .none)
  | .jmp _ | .ret | .hlt => false

end Sys2Proof.Machine
end

