-- ==== Sys2Proof/Certificates/Slice0/Obligations.lean ====
section
/-! DEFINITION. The statements for the provers, from the numbered rules of the spec. Each docstring names the rule or the
section it formalises, and the log entry of any choice it rests on. Every statement holds for every memory size N that a
state may have, unless it bounds `memSize` itself. -/

open Sys2Proof Sys2Proof.Machine

/-! ### Encoding and decoding (30_encoding) -/

/-- Words written out byte by byte from the table of 30_encoding R80, one of every family and format, and the twelve bytes
of the source's own example, decode to the instructions they stand for. That the flag index of `FLG` is one byte is the
spec's choice D9 (log 6). -/
def Obligations.WrittenWordsDecode : Prop :=
  decode [0x00, 0x02] = .ok (.push 2, []) ∧
  decode [0x01, 0x04, 0x02] = .ok (.movMrR 4 2, []) ∧
  decode [0x02, 0x01, 0x00, 0x30] = .ok (.movMrM 1 0x0030, []) ∧
  decode [0x0B, 0x02, 0x00, 0x01] = .ok (.addRC 2 1, []) ∧
  decode [0x0C, 0x00, 0x01] = .ok (.cmp 0 1, []) ∧
  decode [0x0D, 0x02, 0x05] = .ok (.flg 2 5, []) ∧
  decode [0x0F, 0x12, 0x34] = .ok (.jmp 0x1234, []) ∧
  decode [0x10, 0x0B] = .ok (.call 11, []) ∧
  decode [0x12] = .ok (.ret, []) ∧
  decode [6, 0, 0, 5, 6, 1, 0, 3, 10, 0, 1, 19] = .ok (.movRC 0 5, [6, 1, 0, 3, 10, 0, 1, 19]) ∧
  decode [6, 1, 0, 3, 10, 0, 1, 19] = .ok (.movRC 1 3, [10, 0, 1, 19]) ∧
  decode [10, 0, 1, 19] = .ok (.addRR 0 1, [19]) ∧
  decode [19] = .ok (.hlt, [])

/-- Decoding and encoding agree in both directions, for every instruction, every operand and whatever bytes follow
(30_encoding sections 1 to 3): no bit of an encoding is dropped and no two instructions share one. The one-byte flag index
of `FLG` is the spec's choice D9 (log 6). That an index byte above 15 is decoded as it stands, all eight bits of it, is
its choice D8 (log 7). -/
def Obligations.DecodeEncodeAgree : Prop :=
  ∀ (bs rest : List Byte) (i : Instr), decode bs = .ok (i, rest) ↔ bs = encode i ++ rest

/-- The decoder refuses exactly two kinds of sequence, each under its own name (30_encoding section 4, 40_loop section 2).
One whose first byte is 20 to 255 is an undefined opcode, with that byte. One that is a proper prefix of some
instruction's bytes, the empty one among them, is truncated, with the number of bytes that the complete fetches of that
instruction take; no other sequence is. The one-byte flag index of `FLG` is the spec's choice D9 (log 6). That an index
byte above 15, which is no legal encoding, is not refused here is its choice D8 (log 7; BadIndexFaults states what becomes
of it), and that a cut-off instruction with such a byte is truncated, the operands being fetched before any is validated,
its choice D12 (log 10). -/
def Obligations.DecoderRefusesExactly : Prop :=
  (∀ (bs : List Byte) (op : Byte),
    decode bs = .error (.undefinedOpcode op) ↔ 20 ≤ op.toNat ∧ ∃ tail, bs = op :: tail) ∧
  (∀ (bs : List Byte) (k : Nat),
    decode bs = .error (.truncated k) ↔
      ∃ (i : Instr) (missing : List Byte), missing ≠ [] ∧ encode i = bs ++ missing ∧
        k = completeFetches (fetchWidths i) bs.length)

/-! ### Memory (20_memory) -/

/-- 20_memory R45: `MemRead(a, 2)` gives the word `mem[a] ++ mem[a+1]`, or raises when its bytes are not all in memory. -/
def Obligations.WordReadIsBigEndian : Prop :=
  ∀ (s : State) (a : Int) (k : Access),
    (0 ≤ a ∧ a + 2 ≤ s.memSize →
      ∃ v, s.readWord a k = .ok v ∧ v.toNat = (s.byteAt a.toNat).toNat * 256 + (s.byteAt (a.toNat + 1)).toNat) ∧
    (¬(0 ≤ a ∧ a + 2 ≤ s.memSize) → s.readWord a k = .error ⟨.outOfRangeMemoryAccess, a, k⟩)

/-- 20_memory R46: `MemWrite(a, 2, v)` writes the high byte at `a` and the low byte at `a + 1` and nothing else, or raises
with no state at all when the word is not inside memory (at `a = N - 1` too). -/
def Obligations.WordWriteIsBigEndian : Prop :=
  ∀ (s : State) (a : Int) (v : Word),
    (0 ≤ a ∧ a + 2 ≤ s.memSize →
      ∃ t, s.writeWord a v = .ok t ∧ (t.byteAt a.toNat).toNat = v.toNat / 256 ∧
        (t.byteAt (a.toNat + 1)).toNat = v.toNat % 256 ∧ SameBytesOutsideWord s t a ∧ Frame s t [] [] ∧ t.pc = s.pc) ∧
    (¬(0 ≤ a ∧ a + 2 ≤ s.memSize) → s.writeWord a v = .error ⟨.outOfRangeMemoryAccess, a, .write⟩)

/-- 20_memory R43: `CheckRange` raises exactly when `a < 0` or `a + n > N`, computed in the integers. -/
def Obligations.RangeCheckIsExact : Prop :=
  ∀ (s : State) (a : Int) (n : Nat) (k : Access),
    (a < 0 ∨ (s.memSize : Int) < a + n → s.checkRange a n k = .error ⟨.outOfRangeMemoryAccess, a, k⟩) ∧
    (¬(a < 0 ∨ (s.memSize : Int) < a + n) → s.checkRange a n k = .ok ())

/-- Mixed widths see the bytes as stored (20_memory section 1): after a word store of `v` at `a`, the bytes at `a` and
`a + 1` are its high and low byte, the word at `a` is `v`, and the words one byte off join half of it with a neighbour. -/
def Obligations.MixedWidthsSeeStoredBytes : Prop :=
  ∀ (s : State) (a : Nat) (v : Word),
    (s.putWord a v).byteAt a = hiByte v ∧ (s.putWord a v).byteAt (a + 1) = loByte v ∧ (s.putWord a v).wordAt a = v ∧
    (s.putWord a v).wordAt (a + 1) = joinBytes (loByte v) (s.byteAt (a + 2)) ∧
    (0 < a → (s.putWord a v).wordAt (a - 1) = joinBytes (s.byteAt (a - 1)) (hiByte v))

/-- Memories in canonical form that read alike at every address are equal data. The form is the model's own (log 16). -/
def Obligations.CanonicalMemoriesReadAlikeAreEqual : Prop :=
  ∀ m m' : Memory, m.wf = true → m'.wf = true → (∀ a, m.read a = m'.read a) → m = m'

/-! ### Construction and the invariant (10_state, 70_reset_and_hazards) -/

/-- After construction every byte of memory is 0 (10_state section 8), and the host's `Snapshot` answers N zeros (20_memory
section 5). That `Snapshot` is open there rests on slot 5 being 0 at construction, the spec's choice D5 (log 3). -/
def Obligations.ConstructedMemoryIsZero : Prop :=
  ∀ n : Nat, (∀ a, a < n → (State.construct n).byteAt a = 0) ∧
    (State.construct n).hostSnapshot = .ok (List.replicate n 0)

/-- Construction (70_reset_and_hazards section 1): for every N of 1 to 65535, and no other, the machine is there; `x[13]`
is N, no fault is recorded, and the machine is Halted, so no Step exists. The zeros of the other registers (log 2), of the
flags (log 3) and of `pc` (log 4) are the spec's own choices D4, D5 and D6. The bounds of N, and that any other N is
turned away, are its choice D1 (log 1). -/
def Obligations.ConstructedMachineIsHalted : Prop :=
  ∀ n : Nat,
    (1 ≤ n ∧ n ≤ 65535 → ∃ s, hostConstruct n = .ok s ∧ s.memSize = n ∧ (s.reg spIdx).toNat = n ∧
      (∀ i, i ≠ spIdx → s.reg i = 0) ∧ (∀ j, s.flag j = false) ∧ s.pc = 0 ∧ s.fault = none ∧
      s.runState = .halted ∧ step s = .fault .machineHalted) ∧
    (¬(1 ≤ n ∧ n ≤ 65535) → hostConstruct n = .error .badMemSize)

/-- The invariant holds of every constructed machine, the reset state among them. The invariant is the model's (logs 3,
16), as are the bounds of N (the spec's choice D1) and the N of the reset state (log 1). -/
def Obligations.ConstructedMachineIsLegal : Prop :=
  State.reset.Legal ∧ ∀ (n : Nat) (s : State), hostConstruct n = .ok s → s.Legal

/-- Every step keeps the invariant: memory stays canonical and inside `[0, N)`, the unused flag slots stay 0 and at most
one comparison slot is set, and a recorded fault has the fields its kind asks for, the running flag still 1 and `pc` as
recorded (10_state sections 3, 5, 7; 44_compare_flags; 60_exceptions). Rests on the spec's choices D1 for the bounds of N
(log 1), D7 (log 5), D8 (log 7), D10 and D11 for the record (log 18), D13 (log 9) and D15 (log 12). -/
def Obligations.StepKeepsLegal : Prop :=
  ∀ s t : State, s.Legal → step s = .next t → t.Legal

/-- The host's `Load` and the entry action of `Run` keep the invariant too (20_memory section 5, 40_loop section 1). -/
def Obligations.HostMovesKeepLegal : Prop :=
  (∀ (s t : State) (bytes : List Byte) (offset : Int), s.Legal → s.hostLoad bytes offset = .ok t → t.Legal) ∧
  (∀ (s t : State) (start : Word), s.Legal → s.runEntry start = .ok t → t.Legal)

/-! ### Fetch and step (40_loop) -/

/-- 40_loop R104: `Fetch8` gives the byte at `pc` and adds 1 to `pc`, which stays at most N; at `pc >= N` it raises with the
address that could not be fetched and `pc` is not advanced. -/
def Obligations.ByteFetchRule : Prop :=
  ∀ s : State, s.memSize ≤ 65535 →
    (s.pc.toNat < s.memSize → ∃ t, s.fetch8 = .ok (s.byteAt s.pc.toNat, t) ∧ t.pc.toNat = s.pc.toNat + 1 ∧
      t.pc.toNat ≤ s.memSize ∧ Frame s t [] [] ∧ SameBytes s t) ∧
    (s.memSize ≤ s.pc.toNat → s.fetch8 = .error (s, ⟨.outOfRangeMemoryAccess, s.pc.toNat, .fetch⟩))

/-- 40_loop R105: `Fetch16` gives the big-endian word at `pc` and adds 2 to `pc`; with fewer than two bytes left it raises and
`pc` is not advanced, not even by 1. -/
def Obligations.WordFetchRule : Prop :=
  ∀ s : State, s.memSize ≤ 65535 →
    (s.pc.toNat + 2 ≤ s.memSize → ∃ w t, s.fetch16 = .ok (w, t) ∧
      w.toNat = (s.byteAt s.pc.toNat).toNat * 256 + (s.byteAt (s.pc.toNat + 1)).toNat ∧
      t.pc.toNat = s.pc.toNat + 2 ∧ Frame s t [] [] ∧ SameBytes s t) ∧
    (s.memSize < s.pc.toNat + 2 → s.fetch16 = .error (s, ⟨.outOfRangeMemoryAccess, s.pc.toNat, .fetch⟩))

/-- Fetching one byte or word after another (40_loop sections 2 and 3) is decoding the bytes at `pc`: the same instruction
with `pc` after it, and for a sequence that is no instruction the same refusal as a fault, with `pc` after the fetches
that were complete. That all operands are fetched before any is validated, so that a cut-off instruction with a bad index
byte faults in the fetch, is the spec's choice D12 (log 10). That an index byte above 15 is fetched as it stands is its
choice D8 (log 7). -/
def Obligations.FetchAgreesWithDecoder : Prop :=
  ∀ s : State, s.memSize ≤ 65535 →
    (∀ i rest, decode s.stream = .ok (i, rest) → s.fetchInstr = .ok (i, s.advance i.length)) ∧
    (∀ op, decode s.stream = .error (.undefinedOpcode op) →
      s.fetchInstr = .error (s.advance 1, ⟨.undefinedOpcode, op.toNat, .none⟩)) ∧
    (∀ k, decode s.stream = .error (.truncated k) →
      s.fetchInstr = .error (s.advance k, ⟨.outOfRangeMemoryAccess, s.pc.toNat + k, .fetch⟩))

/-- A step runs the decoded instruction (40_loop section 1): when the bytes at `pc` decode to `i`, well formed or not, the
step of a Running machine is `exec i` of that very state. That an ill-formed one executes at all, to its fault, is the
spec's choice D8 (log 7). -/
def Obligations.StepRunsDecodedInstruction : Prop :=
  ∀ (s : State) (i : Instr) (rest : List Byte),
    s.memSize ≤ 65535 → s.Running → decode s.stream = .ok (i, rest) → step s = exec i s

/-- A step is enabled exactly in the Running state, and there it always completes or faults: the machine cannot hang
inside one (10_state section 7, 40_loop section 3). That a fault makes a third run state, in which no step exists, is the
spec's choice D10 (log 8). -/
def Obligations.StepEnabledExactlyWhenRunning : Prop :=
  ∀ s : State, (∃ t, step s = .next t) ↔ s.Running

/-- Operand fetches fault too (40_loop section 2): when the bytes from `pc` end before the instruction does, the step records
an out-of-range fetch at the byte or word that is missing, `pc` is left there, and nothing else changes. With no byte at
all (`k = 0`) this is the fetch of the opcode. That the fetch is
reported and not an index byte above 15 that was already fetched is the spec's choice D12 (log 10). -/
def Obligations.CutOffInstructionFaults : Prop :=
  ∀ (s : State) (k : Nat), s.memSize ≤ 65535 → s.Running → decode s.stream = .error (.truncated k) →
    step s = .next (s.faultedAfter k .outOfRangeMemoryAccess (s.pc.toNat + k) .fetch)

/-- 60_exceptions R203: an opcode byte of 20 to 255 raises `UndefinedOpcode` with the byte as its value; `pc` is one past the
opcode, no operand was consumed, and the machine, which reports the fault, takes no further step. The code 2 and the form of
the record are the spec's choices D10 and D11 (log 18). -/
def Obligations.UndefinedOpcodeFaults : Prop :=
  ∀ s : State, s.memSize ≤ 65535 → s.Running → s.pc.toNat < s.memSize → 20 ≤ (s.byteAt s.pc.toNat).toNat →
    ∃ t r, step s = .next t ∧ t = s.faultedAfter 1 .undefinedOpcode (s.byteAt s.pc.toNat).toNat .none ∧
      t.fault = some r ∧ r.code = 2 ∧ r.ipc = s.pc ∧ r.pc.toNat = s.pc.toNat + 1 ∧ step t = .fault (.machineFaulted r)

/-- `pc` never wraps (10_state section 2): after a step that is not a completed transfer of control, `pc` is at most N, or
the step was the failed fetch of an opcode at a `pc` that a transfer or the run entry had put at or beyond N. That `pc` is
16 bits wide is deduced (the spec's choice D3, log 13). -/
def Obligations.PcStaysInsideMemory : Prop :=
  ∀ s t : State, s.memSize ≤ 65535 → s.Running → step s = .next t →
    (t.pc.toNat ≤ s.memSize ∨ (t = s.faultedAfter 0 .outOfRangeMemoryAccess s.pc.toNat .fetch ∧ s.memSize ≤ s.pc.toNat)) ∨
      ∃ i u, s.fetchInstr = .ok (i, u) ∧ assignsPc i = true ∧ t.fault = none

/-! ### Results: each instruction completes, with its effect and its frame -/

/-- `PUSH r` (41_stack): with the stack pointer in 2 to N it completes; the pointer goes down by 2 and the register's word is
stored there. `PUSH r13` stores the lowered pointer: the spec's choice D14 (log 11); the guard is its choice D15 (log 12). -/
def Obligations.PushStoresBelowStackPointer : Prop :=
  ∀ (s : State) (r : Fin 16), 2 ≤ (s.reg spIdx).toNat → (s.reg spIdx).toNat ≤ s.memSize →
    ∃ t, exec (.push (idxByte r)) s = .next t ∧ (t.reg spIdx).toNat = (s.reg spIdx).toNat - 2 ∧
      t.wordAt ((s.reg spIdx).toNat - 2) = (if r = spIdx then s.reg spIdx - 2 else s.reg r) ∧
      t.pc = s.pc + 2 ∧ Frame s t [spIdx] [] ∧ SameBytesOutsideWord s t ((s.reg spIdx).toNat - 2)

/-- `POP r` (41_stack): with a whole word at the stack pointer it completes; the register takes the word, the pointer goes
up by 2 and memory keeps the word. `POP r13` ends with the loaded word plus 2: the spec's choice D14 (log 11). The guard
is its choice D15 (log 12), and that the sum wraps modulo 65536 its choice D2 (log 14). -/
def Obligations.PopLoadsFromStackPointer : Prop :=
  ∀ (s : State) (r : Fin 16), (s.reg spIdx).toNat + 2 ≤ s.memSize → s.memSize ≤ 65535 →
    ∃ t, exec (.pop (idxByte r)) s = .next t ∧
      (r ≠ spIdx → t.reg r = s.wordAt (s.reg spIdx).toNat ∧ (t.reg spIdx).toNat = (s.reg spIdx).toNat + 2) ∧
      (r = spIdx → t.reg spIdx = s.wordAt (s.reg spIdx).toNat + 2) ∧
      t.pc = s.pc + 2 ∧ Frame s t [r, spIdx] [] ∧ SameBytes s t

/-- `PUSH r` then `POP r` (41_stack, the stack discipline): every register, the stack pointer among them, and every byte
outside the pushed word are as before, and the word pushed is left in memory; for `r = 13` too (log 11). The guards are
the spec's choice D15 (log 12). -/
def Obligations.PushThenPopRestores : Prop :=
  ∀ (s : State) (r : Fin 16), 2 ≤ (s.reg spIdx).toNat → (s.reg spIdx).toNat ≤ s.memSize → s.memSize ≤ 65535 →
    ∃ t u, exec (.push (idxByte r)) s = .next t ∧ exec (.pop (idxByte r)) t = .next u ∧ Frame s u [] [] ∧
      u.wordAt ((s.reg spIdx).toNat - 2) = (if r = spIdx then s.reg spIdx - 2 else s.reg r) ∧
      SameBytesOutsideWord s u ((s.reg spIdx).toNat - 2)

/-- Last in, first out (41_stack): `PUSH a; PUSH b; POP c; POP d` leaves `x[c]` the old `x[b]` and `x[d]` the old `x[a]`,
for registers other than 13 with `c` and `d` different. The guards are the spec's choice D15 (log 12). -/
def Obligations.StackIsLastInFirstOut : Prop :=
  ∀ (s : State) (a b c d : Fin 16), a ≠ spIdx → b ≠ spIdx → c ≠ spIdx → d ≠ spIdx → c ≠ d →
    4 ≤ (s.reg spIdx).toNat → (s.reg spIdx).toNat ≤ s.memSize → s.memSize ≤ 65535 →
    ∃ t1 t2 t3 t4, exec (.push (idxByte a)) s = .next t1 ∧ exec (.push (idxByte b)) t1 = .next t2 ∧
      exec (.pop (idxByte c)) t2 = .next t3 ∧ exec (.pop (idxByte d)) t3 = .next t4 ∧
      t4.reg c = s.reg b ∧ t4.reg d = s.reg a ∧ t4.reg spIdx = s.reg spIdx

/-- `MOV [a],s` and `MOV [a],c` (42_mov): with the word at `x[a]` inside memory they complete and store all 16 bits there,
`x[a]` read as unsigned. That both are word stores is derived (log 19). -/
def Obligations.RegisterIndirectStores : Prop :=
  ∀ (s : State) (a r : Fin 16) (c : Word), (s.reg a).toNat + 2 ≤ s.memSize →
    (∃ t, exec (.movMrR (idxByte a) (idxByte r)) s = .next t ∧ t.wordAt (s.reg a).toNat = s.reg r ∧ t.pc = s.pc + 3 ∧
      Frame s t [] [] ∧ SameBytesOutsideWord s t (s.reg a).toNat) ∧
    (∃ t, exec (.movMrC (idxByte a) c) s = .next t ∧ t.wordAt (s.reg a).toNat = c ∧ t.pc = s.pc + 4 ∧
      Frame s t [] [] ∧ SameBytesOutsideWord s t (s.reg a).toNat)

/-- `MOV [a],[m]` (42_mov): with both words inside memory it completes, and the destination word is the source word as it was
before any byte changed, overlapping or not. -/
def Obligations.MemoryToMemoryCopies : Prop :=
  ∀ (s : State) (a : Fin 16) (m : Word), (s.reg a).toNat + 2 ≤ s.memSize → m.toNat + 2 ≤ s.memSize →
    ∃ t, exec (.movMrM (idxByte a) m) s = .next t ∧ t.wordAt (s.reg a).toNat = s.wordAt m.toNat ∧ t.pc = s.pc + 4 ∧
      Frame s t [] [] ∧ SameBytesOutsideWord s t (s.reg a).toNat

/-- `MOV d,[m]` and `MOV d,[a]` (42_mov): with the word inside memory they complete and the register holds all 16 bits of it,
high byte first; in `MOV d,[d]` the address is read before the register is written. -/
def Obligations.LoadsReadTheWord : Prop :=
  ∀ (s : State) (d a : Fin 16) (m : Word),
    (m.toNat + 2 ≤ s.memSize → ∃ t, exec (.movRM (idxByte d) m) s = .next t ∧
      (t.reg d).toNat = (s.byteAt m.toNat).toNat * 256 + (s.byteAt (m.toNat + 1)).toNat ∧ t.pc = s.pc + 4 ∧
      Frame s t [d] [] ∧ SameBytes s t) ∧
    ((s.reg a).toNat + 2 ≤ s.memSize → ∃ t, exec (.movRMr (idxByte d) (idxByte a)) s = .next t ∧
      (t.reg d).toNat = (s.byteAt (s.reg a).toNat).toNat * 256 + (s.byteAt ((s.reg a).toNat + 1)).toNat ∧ t.pc = s.pc + 3 ∧
      Frame s t [d] [] ∧ SameBytes s t)

/-- `MOV d,s` and `MOV d,c` (42_mov) complete in every state and for every register, 11 and 13 among them: the destination takes
the source's value, and nothing else changes but `pc`. -/
def Obligations.RegisterMovesCopy : Prop :=
  ∀ (s : State) (d r : Fin 16) (c : Word),
    (∃ t, exec (.movRR (idxByte d) (idxByte r)) s = .next t ∧ t.reg d = s.reg r ∧ t.pc = s.pc + 3 ∧
      Frame s t [d] [] ∧ SameBytes s t) ∧
    (∃ t, exec (.movRC (idxByte d) c) s = .next t ∧ t.reg d = c ∧ t.pc = s.pc + 4 ∧ Frame s t [d] [] ∧ SameBytes s t)

/-- `ADD` and `SUB` with a register (43_arithmetic) complete in every state; the result is the exact sum or difference modulo
65536, with `d` and `s` the same register too, and no flag changes. The wrap is the required semantics, the spec's D2 (log 14). -/
def Obligations.RegisterArithmeticWraps : Prop :=
  ∀ (s : State) (d r : Fin 16),
    (∃ t, exec (.addRR (idxByte d) (idxByte r)) s = .next t ∧
      ((t.reg d).toNat : Int) = (((s.reg d).toNat : Int) + (s.reg r).toNat) % 65536 ∧
      t.pc = s.pc + 3 ∧ Frame s t [d] [] ∧ SameBytes s t) ∧
    (∃ t, exec (.subRR (idxByte d) (idxByte r)) s = .next t ∧
      ((t.reg d).toNat : Int) = (((s.reg d).toNat : Int) - (s.reg r).toNat) % 65536 ∧
      t.pc = s.pc + 3 ∧ Frame s t [d] [] ∧ SameBytes s t)

/-- `ADD` and `SUB` with an immediate (43_arithmetic), likewise (log 14). -/
def Obligations.ImmediateArithmeticWraps : Prop :=
  ∀ (s : State) (d : Fin 16) (c : Word),
    (∃ t, exec (.addRC (idxByte d) c) s = .next t ∧
      ((t.reg d).toNat : Int) = (((s.reg d).toNat : Int) + c.toNat) % 65536 ∧
      t.pc = s.pc + 4 ∧ Frame s t [d] [] ∧ SameBytes s t) ∧
    (∃ t, exec (.subRC (idxByte d) c) s = .next t ∧
      ((t.reg d).toNat : Int) = (((s.reg d).toNat : Int) - c.toNat) % 65536 ∧
      t.pc = s.pc + 4 ∧ Frame s t [d] [] ∧ SameBytes s t)

/-- Arithmetic has no sign (43_arithmetic): the stored sum and difference are the same whether the operands are read as
unsigned or as two's complement (logs 14, 20). -/
def Obligations.ArithmeticHasNoSign : Prop :=
  ∀ u v : Word, addWords u v = trunc16 (sext u + sext v) ∧ subWords u v = trunc16 (sext u - sext v)

/-- `CMP a,b` (44_compare_flags) completes in every state: slot 0 is `x[a] < x[b]`, slot 2 is `x[a] > x[b]`, slot 4 is
`x[a] = x[b]`, as exact signed numbers, so exactly one of the three is 1; nothing else changes. That false slots are
CLEARED is the spec's choice D7 (log 5). That signed means two's complement is presumed (G2, log 20). -/
def Obligations.CompareAssignsThreeSlots : Prop :=
  ∀ (s : State) (a b : Fin 16), ∃ t, exec (.cmp (idxByte a) (idxByte b)) s = .next t ∧
    (t.flag ltSlot = true ↔ (s.reg a).toInt < (s.reg b).toInt) ∧
    (t.flag gtSlot = true ↔ (s.reg b).toInt < (s.reg a).toInt) ∧
    (t.flag eqSlot = true ↔ s.reg a = s.reg b) ∧
    t.pc = s.pc + 3 ∧ Frame s t [] [ltSlot, gtSlot, eqSlot] ∧ SameBytes s t

/-- `FLG d,j` (44_compare_flags) completes in every state: the whole register becomes 0 or 1 and the slot keeps its value.
The one-byte flag index is the spec's choice D9 (log 6). -/
def Obligations.FlagReadWritesWholeRegister : Prop :=
  ∀ (s : State) (d j : Fin 16), ∃ t, exec (.flg (idxByte d) (idxByte j)) s = .next t ∧
    (t.reg d).toNat = (if s.flag j = true then 1 else 0) ∧ t.pc = s.pc + 3 ∧ Frame s t [d] [] ∧ SameBytes s t

/-- `JNZ r,m` (45_control_flow) completes in every state: any non-zero pattern jumps to `m`, unchecked; zero goes on after
the instruction; nothing but `pc` changes. -/
def Obligations.JumpIfNotZero : Prop :=
  ∀ (s : State) (r : Fin 16) (m : Word), ∃ t, exec (.jnz (idxByte r) m) s = .next t ∧
    (s.reg r ≠ 0 → t.pc = m) ∧ (s.reg r = 0 → t.pc = s.pc + 4) ∧ Frame s t [] [] ∧ SameBytes s t

/-- 45_control_flow R171, `JMP m`: three bytes `0F`, `m` high byte first; `pc` becomes `m`, unchecked, and nothing else
changes; its only fault is an operand that cannot be fetched, and a target at or beyond N faults at the next fetch. -/
def Obligations.JumpRule : Prop :=
  (∀ m : Word, encode (.jmp m) = [0x0F, hiByte m, loByte m]) ∧
  (∀ (s : State) (m : Word), exec (.jmp m) s = .next { s with pc := m }) ∧
  (∀ s : State, s.memSize ≤ 65535 → s.Running → s.byteAt s.pc.toNat = 0x0F → s.pc.toNat < s.memSize →
    s.memSize < s.pc.toNat + 3 →
    step s = .next (s.faultedAfter 1 .outOfRangeMemoryAccess (s.pc.toNat + 1) .fetch)) ∧
  (∀ (s t : State) (m : Word), s.Running → exec (.jmp m) s = .next t → s.memSize ≤ m.toNat →
    step t = .next (t.faultedAfter 0 .outOfRangeMemoryAccess m.toNat .fetch))

/-- `CALL a` (45_control_flow) completes in every state: the link register takes the address after the instruction, and `pc`
the value of `x[a]`; `CALL r11` goes to that return address itself, the spec's choice D14 (log 11). Stack pointer,
flags and memory are untouched. -/
def Obligations.CallSavesReturnAddress : Prop :=
  ∀ (s : State) (a : Fin 16), ∃ t, exec (.call (idxByte a)) s = .next t ∧ t.reg lrIdx = s.pc + 2 ∧
    t.pc = (if a = lrIdx then s.pc + 2 else s.reg a) ∧ Frame s t [lrIdx] [] ∧ SameBytes s t

/-- 45_control_flow R173, `RET`: one byte `12`; `pc` becomes `x[11]`, which keeps its value, and nothing else changes; it
never faults. -/
def Obligations.ReturnRule : Prop :=
  encode .ret = [0x12] ∧ ∀ s : State, exec .ret s = .next { s with pc := s.reg 11 }

/-- `CALL` then `RET` (95_test_vectors S7) comes back to the byte after the `CALL`'s operand, through whichever register. -/
def Obligations.CallThenReturnComesBack : Prop :=
  ∀ (s : State) (a : Fin 16), ∃ t u, exec (.call (idxByte a)) s = .next t ∧ exec .ret t = .next u ∧ u.pc = s.pc + 2 ∧
    Frame s u [lrIdx] [] ∧ SameBytes s u

/-- 46_system R180, `HLT`: one byte `13`; slot 5 is cleared and nothing else changes but `pc`, which is past the byte; the
loop then ends with no further step, and a later run entry sets the slot again. It never faults. -/
def Obligations.HaltRule : Prop :=
  encode .hlt = [0x13] ∧
  ∀ s : State, ∃ t, exec .hlt s = .next t ∧ t.flag runSlot = false ∧ t.pc = s.pc + 1 ∧ Frame s t [] [runSlot] ∧
    SameBytes s t ∧
    (s.fault = none → step t = .fault .machineHalted ∧ (∀ fuel, State.runLoop fuel t = some t) ∧
      ∀ start, ∃ u, t.runEntry start = .ok u ∧ u.flag runSlot = true ∧ u.Running)

/-! ### Frames over all instructions -/

/-- The frame of the forms that store nothing and assign no `pc`: the moves into a register, `ADD`, `SUB`, `CMP`, `FLG`, `POP`
and `HLT` (10_state sections 1 and 3, 20_memory section 2). Only the destination register (and for `POP` the stack pointer)
and the slots of `CMP` and `HLT` change, in a faulting instruction too (log 9), and every byte of memory reads as before. -/
def Obligations.FrameOfRegisterForms : Prop :=
  ∀ (i : Instr) (s t : State), (∀ u, storeAddress i u = none) → assignsPc i = false → exec i s = .next t →
    SameRegsExcept s t (writesRegs i) ∧ SameFlagsExcept s t (writesFlags i) ∧ SameBytes s t ∧ SameOrRaised s t

/-- The frame of `JNZ`, `JMP`, `CALL` and `RET`: the link register for `CALL`, no flag, no byte of memory, in
a faulting instruction too (the spec's choice D13, log 9). -/
def Obligations.FrameOfTransfers : Prop :=
  ∀ (i : Instr) (s t : State), assignsPc i = true → exec i s = .next t →
    SameRegsExcept s t (writesRegs i) ∧ SameFlagsExcept s t [] ∧ SameBytes s t ∧ SameOrRaised s t

/-- The frame of the storing forms `PUSH r`, `MOV [a],s`, `MOV [a],[m]` and `MOV [a],c`: the stack pointer for `PUSH`, no
other register, no flag, and of memory the two bytes from the address that the instruction computes, nothing where the
address operand is no register, and no more in a faulting instruction (the spec's choice D13, log 9). -/
def Obligations.FrameOfStoringForms : Prop :=
  (∀ (r : Byte) (s t : State), exec (.push r) s = .next t →
    SameRegsExcept s t [spIdx] ∧ SameFlagsExcept s t [] ∧ SameBytesOutsideStore (.push r) s t ∧ SameOrRaised s t) ∧
  (∀ (a r : Byte) (s t : State), exec (.movMrR a r) s = .next t →
    SameRegsExcept s t [] ∧ SameFlagsExcept s t [] ∧ SameBytesOutsideStore (.movMrR a r) s t ∧ SameOrRaised s t) ∧
  (∀ (a : Byte) (m : Word) (s t : State), exec (.movMrM a m) s = .next t →
    SameRegsExcept s t [] ∧ SameFlagsExcept s t [] ∧ SameBytesOutsideStore (.movMrM a m) s t ∧ SameOrRaised s t) ∧
  (∀ (a : Byte) (c : Word) (s t : State), exec (.movMrC a c) s = .next t →
    SameRegsExcept s t [] ∧ SameFlagsExcept s t [] ∧ SameBytesOutsideStore (.movMrC a c) s t ∧ SameOrRaised s t)

/-- Writers and readers of the flags, exhaustively (10_state section 3). `CMP` writes slots 0, 2 and 4 with the outcome of
the comparison, `HLT` writes 0 and the run entry of a Halted machine 1 to slot 5, and nothing else changes a slot. Of all
instructions only `FLG` reads one: with other flags in the state, the outcome of any other instruction is the same in
registers, memory, `pc` and fault. The loop reads slot 5: it decides whether a step exists. That `CMP` writes a false
outcome too, clearing the slot, is the spec's choice D7 (log 5). That the comparison reads the words as two's complement
is presumed (G2, log 20). -/
def Obligations.FlagWritersAndReaders : Prop :=
  (∀ (a b : Fin 16) (s : State), ∃ t, exec (.cmp (idxByte a) (idxByte b)) s = .next t ∧
    (t.flag 0 = true ↔ (s.reg a).toInt < (s.reg b).toInt) ∧ (t.flag 2 = true ↔ (s.reg b).toInt < (s.reg a).toInt) ∧
    (t.flag 4 = true ↔ s.reg a = s.reg b)) ∧
  (∀ s : State, ∃ t, exec .hlt s = .next t ∧ t.flag 5 = false) ∧
  (∀ (s : State) (start : Word), s.runState = .halted → ∃ t, s.runEntry start = .ok t ∧ t.flag 5 = true) ∧
  (∀ (i : Instr) (s t : State) (j : Fin 16), exec i s = .next t → t.flag j ≠ s.flag j →
    (∃ a b, i = .cmp a b ∧ (j = 0 ∨ j = 2 ∨ j = 4)) ∨ (i = .hlt ∧ j = 5)) ∧
  (∀ (s t : State) (start : Word) (j : Fin 16), s.runEntry start = .ok t → t.flag j ≠ s.flag j → j = 5) ∧
  (∀ (i : Instr) (s t : State) (fs : Vector Bool 16), (∀ d j, i ≠ .flg d j) → exec i s = .next t →
    ∃ gs, exec i { s with flags := fs } = .next { t with flags := gs }) ∧
  (∀ (d j : Fin 16) (s : State), ∃ t, exec (.flg (idxByte d) (idxByte j)) s = .next t ∧ t.reg d = flagWord (s.flag j)) ∧
  (∀ s : State, s.fault = none → ((∃ t, step s = .next t) ↔ s.flag 5 = true))

/-- `pc` changes in exactly two ways (10_state section 2): past the instruction's bytes, or by the direct assignment of
`JNZ`, `JMP`, `CALL` or `RET` that completes; a fault assigns nothing. That a faulting instruction, one with a bad index
too, leaves `pc` past ALL its bytes is the spec's choice D12 (log 10), that no transfer is committed by one D13 (log 9),
and the length of `FLG` D9 (log 6). -/
def Obligations.OnlyTransfersAssignPc : Prop :=
  ∀ (i : Instr) (s t : State), s.fault = none → exec i s = .next t →
    t.pc = s.pc + BitVec.ofNat 16 i.length ∨ (assignsPc i = true ∧ t.fault = none)

/-! ### Faults (60_exceptions) -/

/-- A bad index is a fault (60_exceptions section 1): the first index operand above 15, in operand order, is reported with
its byte, before any other check, with `pc` after the whole instruction and nothing else changed. That it is a fault is the
spec's choice D8 (log 7), the order its choice D12 (log 10), and that nothing is committed D13 (log 9). An instruction is well formed exactly when it has none. -/
def Obligations.BadIndexFaults : Prop :=
  (∀ i : Instr, i.wf = true ↔ firstBadIndex i = none) ∧
  ∀ (i : Instr) (s : State) (b : Byte) (k : FaultKind), firstBadIndex i = some (b, k) →
    exec i s = .next (s.faultedAfter i.length k b.toNat .none)

/-- 60_exceptions R204: `PUSH` with the stack pointer 0 or 1 raises `StackOverflow` with that pointer; nothing is decremented
or stored; and no other instruction raises it. The bound is the spec's choice D15 (log 12), that nothing is committed D13
(log 9). -/
def Obligations.StackOverflowRule : Prop :=
  (∀ (s : State) (r : Fin 16), (s.reg spIdx).toNat < 2 →
    exec (.push (idxByte r)) s = .next (s.faultedAfter 2 .stackOverflow (s.reg spIdx).toNat .none)) ∧
  (∀ (i : Instr) (s t : State) (f : FaultRecord), s.fault = none → exec i s = .next t → t.fault = some f →
    f.kind = .stackOverflow → (∃ r, i = .push r) ∧ (s.reg spIdx).toNat < 2)

/-- 60_exceptions R205: `POP` without a whole word of memory at the stack pointer raises `StackUnderflow` with that pointer;
no register changes; and no other instruction raises it. The bound is the spec's choice D15 (log 12), that nothing is
committed D13 (log 9). -/
def Obligations.StackUnderflowRule : Prop :=
  (∀ (s : State) (r : Fin 16), s.memSize < (s.reg spIdx).toNat + 2 →
    exec (.pop (idxByte r)) s = .next (s.faultedAfter 2 .stackUnderflow (s.reg spIdx).toNat .none)) ∧
  (∀ (i : Instr) (s t : State) (f : FaultRecord), s.fault = none → exec i s = .next t → t.fault = some f →
    f.kind = .stackUnderflow → (∃ r, i = .pop r) ∧ s.memSize < (s.reg spIdx).toNat + 2)

/-- Stores outside memory fault (60_exceptions section 1, 41_stack, 42_mov): `PUSH` with the pointer above N, and `MOV [a],s`
and `MOV [a],c` with the word at `x[a]` not inside memory, raise an out-of-range write with the address of the word and
commit nothing. That `PUSH` there is no stack fault is the spec's choice D15 (log 12), that nothing is committed its choice
D13 (log 9), and that the two `MOV`s store words, so that N - 1 is outside, is derived (log 19). -/
def Obligations.StoresOutsideMemoryFault : Prop :=
  ∀ (s : State) (a r : Fin 16) (c : Word),
    (2 ≤ (s.reg spIdx).toNat → s.memSize < (s.reg spIdx).toNat → exec (.push (idxByte r)) s =
      .next (s.faultedAfter 2 .outOfRangeMemoryAccess ((s.reg spIdx).toNat - 2) .write)) ∧
    (s.memSize < (s.reg a).toNat + 2 → exec (.movMrR (idxByte a) (idxByte r)) s =
      .next (s.faultedAfter 3 .outOfRangeMemoryAccess (s.reg a).toNat .write)) ∧
    (s.memSize < (s.reg a).toNat + 2 → exec (.movMrC (idxByte a) c) s =
      .next (s.faultedAfter 4 .outOfRangeMemoryAccess (s.reg a).toNat .write))

/-- Loads outside memory fault, and `MOV [a],[m]` reports its read before its write (60_exceptions sections 1 and 2, the
order being the spec's choice D12, log 10; that nothing is committed is D13, log 9). -/
def Obligations.LoadsOutsideMemoryFault : Prop :=
  ∀ (s : State) (a d : Fin 16) (m : Word),
    (s.memSize < m.toNat + 2 → exec (.movRM (idxByte d) m) s =
      .next (s.faultedAfter 4 .outOfRangeMemoryAccess m.toNat .read)) ∧
    (s.memSize < (s.reg a).toNat + 2 → exec (.movRMr (idxByte d) (idxByte a)) s =
      .next (s.faultedAfter 3 .outOfRangeMemoryAccess (s.reg a).toNat .read)) ∧
    (s.memSize < m.toNat + 2 → exec (.movMrM (idxByte a) m) s =
      .next (s.faultedAfter 4 .outOfRangeMemoryAccess m.toNat .read)) ∧
    (m.toNat + 2 ≤ s.memSize → s.memSize < (s.reg a).toNat + 2 → exec (.movMrM (idxByte a) m) s =
      .next (s.faultedAfter 4 .outOfRangeMemoryAccess (s.reg a).toNat .write))

/-- The instruction by fault matrix (60_exceptions section 1): an instruction raises only the kinds and accesses its row
allows, and a faulting instruction changes `pc`, past its bytes, and the record, and nothing else (the spec's choice D13,
log 9). That `pc` is past ALL its bytes, for an index fault too, is the spec's choice D12 (log 10), that a bad index is a
fault its choice D8 (log 7), and which faults `PUSH` and `POP` have, `POP` no read fault, its choice D15 (log 12). -/
def Obligations.FaultMatrix : Prop :=
  ∀ (i : Instr) (s t : State) (f : FaultRecord), s.fault = none → exec i s = .next t → t.fault = some f →
    mayRaise i f.kind f.access = true ∧ t = s.faultedAfter i.length f.kind f.value f.access

/-- A fault is final (10_state section 7): none at construction; a raise sets the record and changes nothing else, not `pc` and
not slot 5; and nothing clears it: a Faulted machine has no step, and `Load` and `Run` are refused. That those two are
refused is the spec's choice D17 and D18 (log 17); the record's form is its choice D10 (log 18). -/
def Obligations.FaultIsFinal : Prop :=
  (∀ n, (State.construct n).fault = none) ∧
  (∀ (s : State) (ipc : Word) (r : Raise), ∃ f, s.raise ipc r = { s with fault := some f } ∧ f.kind = r.kind ∧
    f.value = r.value ∧ f.access = r.access ∧ f.ipc = ipc ∧ f.pc = s.pc) ∧
  (∀ (s : State) (f : FaultRecord), s.fault = some f → step s = .fault (.machineFaulted f) ∧
    (∀ fuel, State.runLoop fuel s = some s) ∧ (∀ bytes offset, s.hostLoad bytes offset = .error .machineFaulted) ∧
    ∀ start, s.runEntry start = .error .machineFaulted)

/-! ### The host (20_memory section 5, 40_loop section 1) -/

/-- `Load` (20_memory section 5): on a Halted machine the bytes go to `offset` on, verbatim, and nothing else changes; a load
that does not fit changes nothing; it is refused while Running or Faulted. All or nothing and when allowed: the spec's choice
D17 (log 17). -/
def Obligations.LoadIsAllOrNothing : Prop :=
  ∀ (s : State) (bytes : List Byte) (offset : Int),
    (s.runState = .halted → 0 ≤ offset → offset + bytes.length ≤ s.memSize →
      ∃ t, s.hostLoad bytes offset = .ok t ∧
        (∀ a : Nat, t.byteAt a = if offset ≤ a ∧ (a : Int) < offset + bytes.length
          then bytes.getD ((a : Int) - offset).toNat 0 else s.byteAt a) ∧
        Frame s t [] [] ∧ t.pc = s.pc) ∧
    (s.runState = .halted → ¬(0 ≤ offset ∧ offset + bytes.length ≤ s.memSize) →
      s.hostLoad bytes offset = .error .pastEnd) ∧
    (s.runState = .running → s.hostLoad bytes offset = .error .machineRunning) ∧
    (s.runState = .faulted → s.hostLoad bytes offset = .error .machineFaulted)

/-- The run entry (40_loop section 1): on a Halted machine it sets `pc` and slot 5 and nothing else, whatever the address;
a start at or beyond N faults at the first fetch; it is refused while Running or Faulted (the spec's choices D3 and D18,
logs 13, 17). -/
def Obligations.RunEntrySetsPcAndFlag : Prop :=
  ∀ (s : State) (start : Word),
    (s.runState = .halted → ∃ t, s.runEntry start = .ok t ∧ t.pc = start ∧ t.flag runSlot = true ∧
      Frame s t [] [runSlot] ∧ SameBytes s t ∧ t.Running ∧
      (s.memSize ≤ start.toNat → step t = .next (t.faultedAfter 0 .outOfRangeMemoryAccess start.toNat .fetch))) ∧
    (s.runState = .running → s.runEntry start = .error .machineRunning) ∧
    (s.runState = .faulted → s.runEntry start = .error .machineFaulted)

/-- 20_memory R60: `Snapshot` gives the N bytes in address order, on a Halted or Faulted machine only; it has no state to
change. That it is turned away on a Running machine, where the spec offers the host no move, is log 17. -/
def Obligations.SnapshotIsAllOfMemory : Prop :=
  ∀ s : State,
    (s.runState ≠ .running → ∃ bs, s.hostSnapshot = .ok bs ∧ bs.length = s.memSize ∧
      ∀ a, a < s.memSize → bs[a]? = some (s.byteAt a)) ∧
    (s.runState = .running → s.hostSnapshot = .error .machineRunning)

/-- The loop of `Run` (40_loop section 1): it returns only a machine that is Halted or Faulted; given more fuel it returns
the same state; each unit of fuel is one Step; and a Halted or Faulted machine is returned as it is, with no Step. Fuel is
the model's (log 21). -/
def Obligations.RunLoopStopsOnlyWhenNotRunning : Prop :=
  (∀ (n : Nat) (s t : State), State.runLoop n s = some t → ¬t.Running) ∧
  (∀ (n k : Nat) (s t : State), State.runLoop n s = some t → State.runLoop (n + k) s = some t) ∧
  (∀ (n : Nat) (s t : State), step s = .next t → State.runLoop (n + 1) s = State.runLoop n t) ∧
  (∀ (n : Nat) (s : State), ¬s.Running → State.runLoop n s = some s)

/-- Fetch is coherent with stores (20_memory section 4): a word that `MOV [a],c` stores over the bytes right after itself is
what the very next fetch reads, its high byte as the opcode. That opcode 3 stores a word is derived (log 19). -/
def Obligations.StoreIsSeenByNextFetch : Prop :=
  ∀ (s : State) (a : Fin 16) (c : Word), s.memSize ≤ 65535 → s.pc.toNat + 6 ≤ s.memSize →
    (s.reg a).toNat = s.pc.toNat + 4 →
    ∃ t, exec (.movMrC (idxByte a) c) s = .next t ∧ t.pc.toNat = s.pc.toNat + 4 ∧
      t.stream.take 2 = [hiByte c, loByte c] ∧ t.fetch8 = .ok (hiByte c, t.advance 1)

/-- 10_state R21: the slots are independent: a write to one reads back there and changes no other. -/
def Obligations.FlagSlotsAreIndependent : Prop :=
  ∀ (s : State) (i j : Fin 16) (b : Bool), (s.setFlag i b).flag i = b ∧ (j ≠ i → (s.setFlag i b).flag j = s.flag j)

/-- The model's way to place one instruction (log 15): where the longest instruction fits at `pc`, `withFetchWord` makes
the very next step run exactly the instruction the table word decodes to. A word with an index byte above 15 is an
instruction too, by the spec's choice D8 (log 7). -/
def Obligations.PlacedWordRunsNext : Prop :=
  ∀ (s : State) (nbits w : Nat) (i : Instr), s.memSize ≤ 65535 → s.pc.toNat + maxLength ≤ s.memSize →
    decodeTableWord nbits w = some i →
    step (s.withFetchWord nbits w) = exec i (s.withFetchWord nbits w)
end

