-- ==== Sys2Proof/Laws/Decode.lean ====
section
/-! SUPPORT. The byte-order helpers undo each other, and the parts of the decoder. -/

namespace Sys2Proof

@[simp] theorem hiByte_joinBytes (hi lo : Byte) : hiByte (joinBytes hi lo) = hi := BitVec.extractLsb'_append_eq_left

@[simp] theorem loByte_joinBytes (hi lo : Byte) : loByte (joinBytes hi lo) = lo := BitVec.extractLsb'_append_eq_right

@[simp] theorem joinBytes_hiByte_loByte (v : Word) : joinBytes (hiByte v) (loByte v) = v := by
  unfold hiByte loByte joinBytes
  apply BitVec.eq_of_getElem_eq
  intro i hi
  rw [BitVec.getElem_append]
  split_ifs with h
  · simp [BitVec.getLsbD_eq_getElem (show i < 16 from hi)]
  · have e : 8 + (i - 8) = i := by omega
    simp [e, BitVec.getLsbD_eq_getElem (show i < 16 from hi)]

/-- An index byte is well formed. -/
@[simp] theorem regByteOk_idxByte (i : Fin 16) : regByteOk (idxByte i) = true := by revert i; decide

@[simp] theorem flagByteOk_idxByte (i : Fin 16) : flagByteOk (idxByte i) = true := by revert i; decide

@[simp] theorem toNat_idxByte (i : Fin 16) : (idxByte i).toNat = i.val := by revert i; decide

end Sys2Proof
end

