-- ==== Sys2Proof/Laws/Memory.lean ====
section
/-! SUPPORT. Memory: read after write, the frame of a write, and that every memory operation keeps the canonical form. -/

namespace Sys2Proof.Machine

/-! ### Reading after writing -/

theorem Memory.read_insert (m : Memory) (a b : Nat) (v : Byte) :
    Memory.read (Memory.insert m a v) b = if b = a then v else Memory.read m b := by
  induction m with
  | nil => simp [Memory.insert, Memory.read]
  | cons c m ih =>
    obtain ⟨k, x⟩ := c
    rcases Nat.lt_trichotomy a k with h | h | h
    · simp only [Memory.insert, if_pos h, Memory.read]
    · subst h
      simp only [Memory.insert, lt_irrefl, if_false, if_true, Memory.read]
      split_ifs <;> rfl
    · simp only [Memory.insert, if_neg (Nat.lt_asymm h), if_neg (Nat.ne_of_gt h), Memory.read, ih]
      split_ifs <;> first | rfl | omega

theorem Memory.read_filter (m : Memory) (a b : Nat) :
    Memory.read (m.filter fun c => decide (c.1 ≠ a)) b = if b = a then 0 else Memory.read m b := by
  induction m with
  | nil => simp [Memory.read]
  | cons c m ih =>
    obtain ⟨k, x⟩ := c
    by_cases hk : k = a
    · subst hk
      rw [List.filter_cons_of_neg (by simp), ih]
      simp only [Memory.read]; split_ifs <;> rfl
    · rw [List.filter_cons_of_pos (by simpa using hk)]
      simp only [Memory.read, ih]; split_ifs <;> first | rfl | omega

/-- A read after a write of one byte gives the value written there and what was read before elsewhere (20_memory R54). -/
theorem Memory.read_write (m : Memory) (a b : Nat) (v : Byte) :
    Memory.read (Memory.write m a v) b = if b = a then v else Memory.read m b := by
  unfold Memory.write
  split_ifs with h h' h'
  · rw [Memory.read_filter, if_pos h', h]
  · rw [Memory.read_filter, if_neg h']
  · rw [Memory.read_insert, if_pos h']
  · rw [Memory.read_insert, if_neg h']

/-! ### The canonical form is kept -/

/-- The canonical form, entry by entry. -/
theorem Memory.wfFrom_cons {lo : Nat} {c : Host.Cell} {m : Memory} :
    Memory.wfFrom lo (c :: m) = true ↔ (lo ≤ c.1 ∧ c.2 ≠ 0) ∧ Memory.wfFrom (c.1 + 1) m = true := by
  simp only [Memory.wfFrom, Bool.and_eq_true, decide_eq_true_eq]

theorem Memory.wfFrom_mono {lo lo' : Nat} (h : lo' ≤ lo) {m : Memory} (hm : Memory.wfFrom lo m = true) :
    Memory.wfFrom lo' m = true := by
  cases m with
  | nil => rfl
  | cons c m =>
    rw [Memory.wfFrom_cons] at hm ⊢
    exact ⟨⟨le_trans h hm.1.1, hm.1.2⟩, hm.2⟩

theorem Memory.wfFrom_insert {lo : Nat} {m : Memory} {a : Nat} {v : Byte} (hm : Memory.wfFrom lo m = true)
    (ha : lo ≤ a) (hv : v ≠ 0) : Memory.wfFrom lo (Memory.insert m a v) = true := by
  induction m generalizing lo with
  | nil => exact Memory.wfFrom_cons.mpr ⟨⟨ha, hv⟩, rfl⟩
  | cons c m ih =>
    obtain ⟨⟨h1, h2⟩, h3⟩ := Memory.wfFrom_cons.mp hm
    unfold Memory.insert
    split_ifs with h4 h5
    · exact Memory.wfFrom_cons.mpr ⟨⟨ha, hv⟩, Memory.wfFrom_cons.mpr ⟨⟨h4, h2⟩, h3⟩⟩
    · exact Memory.wfFrom_cons.mpr ⟨⟨ha, hv⟩, h5 ▸ h3⟩
    · exact Memory.wfFrom_cons.mpr ⟨⟨h1, h2⟩, ih h3 (by omega)⟩

theorem Memory.wfFrom_filter {lo : Nat} {m : Memory} (p : Host.Cell → Bool) (hm : Memory.wfFrom lo m = true) :
    Memory.wfFrom lo (m.filter p) = true := by
  induction m generalizing lo with
  | nil => rfl
  | cons c m ih =>
    obtain ⟨⟨h1, h2⟩, h3⟩ := Memory.wfFrom_cons.mp hm
    rw [List.filter_cons]
    split_ifs
    · exact Memory.wfFrom_cons.mpr ⟨⟨h1, h2⟩, ih h3⟩
    · exact Memory.wfFrom_mono (by omega) (ih h3)

/-- Writing a byte keeps the canonical form. -/
theorem Memory.wf_write {m : Memory} (a : Nat) (v : Byte) (hm : Memory.wf m = true) :
    Memory.wf (Memory.write m a v) = true := by
  unfold Memory.write
  split_ifs with h
  · exact Memory.wfFrom_filter _ hm
  · exact Memory.wfFrom_insert hm (Nat.zero_le _) h

theorem Memory.below_insert {n : Nat} {m : Memory} {a : Nat} (v : Byte) (hm : Memory.below n m = true) (ha : a < n) :
    Memory.below n (Memory.insert m a v) = true := by
  induction m with
  | nil => simp [Memory.insert, Memory.below, ha]
  | cons c m ih =>
    obtain ⟨k, x⟩ := c
    simp only [Memory.below, List.all_cons, Bool.and_eq_true, decide_eq_true_eq] at hm ih ⊢
    unfold Memory.insert
    split_ifs <;> simp [ha, hm.1, hm.2, ih hm.2]

/-- Writing a byte inside `[0, n)` keeps every listed address inside it. -/
theorem Memory.below_write {n : Nat} {m : Memory} {a : Nat} (v : Byte) (hm : Memory.below n m = true) (ha : a < n) :
    Memory.below n (Memory.write m a v) = true := by
  unfold Memory.write
  split_ifs
  · simp only [Memory.below, List.all_eq_true] at hm ⊢
    exact fun c hc => hm c (List.mem_filter.mp hc).1
  · exact Memory.below_insert v hm ha

/-- Writing consecutive bytes keeps the canonical form. -/
theorem Memory.wf_writeBytes {m : Memory} (a : Nat) (bs : List Byte) (hm : Memory.wf m = true) :
    Memory.wf (Memory.writeBytes m a bs) = true := by
  induction bs generalizing m a with
  | nil => exact hm
  | cons b bs ih => exact ih (a + 1) (Memory.wf_write a b hm)

/-- Writing consecutive bytes inside `[0, n)` keeps every listed address inside it. -/
theorem Memory.below_writeBytes {n : Nat} {m : Memory} (a : Nat) (bs : List Byte) (hm : Memory.below n m = true)
    (ha : a + bs.length ≤ n) : Memory.below n (Memory.writeBytes m a bs) = true := by
  induction bs generalizing m a with
  | nil => exact hm
  | cons b bs ih =>
    simp only [List.length_cons] at ha
    exact ih (a + 1) (Memory.below_write b hm (by omega)) (by omega)

/-! ### Words -/

/-- Reading a byte after a word was put (20_memory R40, R46). -/
theorem byteAt_putWord (s : State) (a : Nat) (v : Word) (b : Nat) :
    (s.putWord a v).byteAt b = if b = a + 1 then loByte v else if b = a then hiByte v else s.byteAt b := by
  simp only [State.putWord, State.byteAt, Memory.read_write]

/-- A word put keeps the canonical form. -/
theorem wf_putWord {s : State} (a : Nat) (v : Word) (h : s.mem.wf = true) : (s.putWord a v).mem.wf = true :=
  Memory.wf_write _ _ (Memory.wf_write _ _ h)

/-- A word put inside memory keeps every listed address inside it. -/
theorem below_putWord {s : State} {a : Nat} (v : Word) (h : s.mem.below s.memSize = true) (ha : a + 2 ≤ s.memSize) :
    (s.putWord a v).mem.below s.memSize = true :=
  Memory.below_write _ (Memory.below_write _ h (by omega)) (by omega)

/-- The memory of the state after construction is canonical. -/
theorem construct_mem_wf (n : Nat) : (State.construct n).mem.wf = true := rfl

/-- The memory of the reset state is canonical. -/
theorem reset_mem_wf : State.reset.mem.wf = true := rfl

end Sys2Proof.Machine
end

