-- ==== Sys2Proof/Laws/State.lean ====
section
/-! SUPPORT. One lemma per field per update, true by rfl, and what reading a register or a flag after a write gives. -/

namespace Sys2Proof.Machine

section
variable (s : State) (i : Fin 16) (v : Word) (b : Bool) (n a : Nat) (ipc : Word) (r : Raise)

@[simp] theorem setReg_memSize : (s.setReg i v).memSize = s.memSize := rfl
@[simp] theorem setReg_mem : (s.setReg i v).mem = s.mem := rfl
@[simp] theorem setReg_flags : (s.setReg i v).flags = s.flags := rfl
@[simp] theorem setReg_pc : (s.setReg i v).pc = s.pc := rfl
@[simp] theorem setReg_fault : (s.setReg i v).fault = s.fault := rfl

@[simp] theorem setFlag_memSize : (s.setFlag i b).memSize = s.memSize := rfl
@[simp] theorem setFlag_mem : (s.setFlag i b).mem = s.mem := rfl
@[simp] theorem setFlag_regs : (s.setFlag i b).regs = s.regs := rfl
@[simp] theorem setFlag_pc : (s.setFlag i b).pc = s.pc := rfl
@[simp] theorem setFlag_fault : (s.setFlag i b).fault = s.fault := rfl

@[simp] theorem setPc_memSize : (s.setPc v).memSize = s.memSize := rfl
@[simp] theorem setPc_mem : (s.setPc v).mem = s.mem := rfl
@[simp] theorem setPc_regs : (s.setPc v).regs = s.regs := rfl
@[simp] theorem setPc_flags : (s.setPc v).flags = s.flags := rfl
@[simp] theorem setPc_pc : (s.setPc v).pc = v := rfl
@[simp] theorem setPc_fault : (s.setPc v).fault = s.fault := rfl

@[simp] theorem advance_memSize : (s.advance n).memSize = s.memSize := rfl
@[simp] theorem advance_mem : (s.advance n).mem = s.mem := rfl
@[simp] theorem advance_regs : (s.advance n).regs = s.regs := rfl
@[simp] theorem advance_flags : (s.advance n).flags = s.flags := rfl
@[simp] theorem advance_pc : (s.advance n).pc = s.pc + BitVec.ofNat 16 n := rfl
@[simp] theorem advance_fault : (s.advance n).fault = s.fault := rfl

@[simp] theorem putWord_memSize : (s.putWord a v).memSize = s.memSize := rfl
@[simp] theorem putWord_regs : (s.putWord a v).regs = s.regs := rfl
@[simp] theorem putWord_flags : (s.putWord a v).flags = s.flags := rfl
@[simp] theorem putWord_pc : (s.putWord a v).pc = s.pc := rfl
@[simp] theorem putWord_fault : (s.putWord a v).fault = s.fault := rfl

@[simp] theorem raise_memSize : (s.raise ipc r).memSize = s.memSize := rfl
@[simp] theorem raise_mem : (s.raise ipc r).mem = s.mem := rfl
@[simp] theorem raise_regs : (s.raise ipc r).regs = s.regs := rfl
@[simp] theorem raise_flags : (s.raise ipc r).flags = s.flags := rfl
@[simp] theorem raise_pc : (s.raise ipc r).pc = s.pc := rfl
@[simp] theorem raise_fault : (s.raise ipc r).fault = some ⟨r.kind, r.value, r.access, ipc, s.pc⟩ := rfl

@[simp] theorem compare_memSize (u : Word) : (s.compare u v).memSize = s.memSize := rfl
@[simp] theorem compare_mem (u : Word) : (s.compare u v).mem = s.mem := rfl
@[simp] theorem compare_regs (u : Word) : (s.compare u v).regs = s.regs := rfl
@[simp] theorem compare_pc (u : Word) : (s.compare u v).pc = s.pc := rfl
@[simp] theorem compare_fault (u : Word) : (s.compare u v).fault = s.fault := rfl

end

/-! ### Accessors after an update that leaves their field alone -/

section
variable (s : State) (i j : Fin 16) (v : Word) (b : Bool) (n a : Nat) (ipc : Word) (r : Raise)

@[simp] theorem reg_setPc : (s.setPc v).reg i = s.reg i := rfl
@[simp] theorem reg_advance : (s.advance n).reg i = s.reg i := rfl
@[simp] theorem reg_setFlag : (s.setFlag j b).reg i = s.reg i := rfl
@[simp] theorem reg_putWord : (s.putWord a v).reg i = s.reg i := rfl
@[simp] theorem reg_raise : (s.raise ipc r).reg i = s.reg i := rfl
@[simp] theorem reg_compare (u : Word) : (s.compare u v).reg i = s.reg i := rfl
@[simp] theorem flag_setPc : (s.setPc v).flag i = s.flag i := rfl
@[simp] theorem flag_advance : (s.advance n).flag i = s.flag i := rfl
@[simp] theorem flag_setReg : (s.setReg j v).flag i = s.flag i := rfl
@[simp] theorem flag_putWord : (s.putWord a v).flag i = s.flag i := rfl
@[simp] theorem flag_raise : (s.raise ipc r).flag i = s.flag i := rfl
@[simp] theorem byteAt_setPc : (s.setPc v).byteAt a = s.byteAt a := rfl
@[simp] theorem byteAt_advance : (s.advance n).byteAt a = s.byteAt a := rfl
@[simp] theorem byteAt_setReg : (s.setReg i v).byteAt a = s.byteAt a := rfl
@[simp] theorem byteAt_setFlag : (s.setFlag i b).byteAt a = s.byteAt a := rfl
@[simp] theorem byteAt_raise : (s.raise ipc r).byteAt a = s.byteAt a := rfl
@[simp] theorem byteAt_compare (u : Word) : (s.compare u v).byteAt a = s.byteAt a := rfl
@[simp] theorem wordAt_setPc : (s.setPc v).wordAt a = s.wordAt a := rfl
@[simp] theorem wordAt_advance : (s.advance n).wordAt a = s.wordAt a := rfl
@[simp] theorem wordAt_setReg : (s.setReg i v).wordAt a = s.wordAt a := rfl
@[simp] theorem wordAt_setFlag : (s.setFlag i b).wordAt a = s.wordAt a := rfl

/-- Reading a register after a register write (10_state R11). -/
theorem reg_setReg : (s.setReg i v).reg j = if j = i then v else s.reg j := by
  unfold State.reg State.setReg
  by_cases h : j = i
  · subst h; simp
  · have h' : i.val ≠ j.val := fun e => h (Fin.ext e.symm)
    simp [h, h']

@[simp] theorem reg_setReg_self : (s.setReg i v).reg i = v := by simp [reg_setReg]

theorem reg_setReg_ne (h : j ≠ i) : (s.setReg i v).reg j = s.reg j := by simp [reg_setReg, h]

/-- Reading a flag slot after a flag write (10_state R21). -/
theorem flag_setFlag : (s.setFlag i b).flag j = if j = i then b else s.flag j := by
  unfold State.flag State.setFlag
  by_cases h : j = i
  · subst h; simp
  · have h' : i.val ≠ j.val := fun e => h (Fin.ext e.symm)
    simp [h, h']

@[simp] theorem flag_setFlag_self : (s.setFlag i b).flag i = b := by simp [flag_setFlag]

theorem flag_setFlag_ne (h : j ≠ i) : (s.setFlag i b).flag j = s.flag j := by simp [flag_setFlag, h]

/-- Every slot after a comparison (44_compare_flags R160). -/
theorem flag_compare (u : Word) : (s.compare u v).flag j =
    if j = eqSlot then decide (sext u = sext v) else if j = gtSlot then decide (sext u > sext v)
    else if j = ltSlot then decide (sext u < sext v) else s.flag j := by
  simp only [State.compare, flag_setFlag]

end

end Sys2Proof.Machine
end

