-- ==== Sys2Proof/Laws/Ops.lean ====
section
/-! SUPPORT. One lemma per shared operation that says everything it can do; later proofs cite these. -/

namespace Sys2Proof.Machine

/-! ### Sequencing -/

section
variable {α β : Type}

@[simp] theorem ok_bind (a : α) (f : α → Except Raise β) : (Except.ok a >>= f) = f a := rfl
@[simp] theorem error_bind (e : Raise) (f : α → Except Raise β) : ((Except.error e : Except Raise α) >>= f) = .error e := rfl
@[simp] theorem pure_eq_ok (a : α) : (pure a : Except Raise α) = .ok a := rfl

/-- A sequence that answers a value passed through both its parts. -/
theorem bind_eq_ok {x : Except Raise α} {f : α → Except Raise β} {b : β} :
    (x >>= f) = .ok b ↔ ∃ a, x = .ok a ∧ f a = .ok b := by
  cases x <;> simp

/-- A sequence that raises does so in its first part, or in its second after the first answered. -/
theorem bind_eq_error {x : Except Raise α} {f : α → Except Raise β} {e : Raise} :
    (x >>= f) = .error e ↔ x = .error e ∨ ∃ a, x = .ok a ∧ f a = .error e := by
  cases x <;> simp

end

/-! ### Index bytes -/

@[simp] theorem idxOf_idxByte (i : Fin 16) : idxOf (idxByte i) = some i := by revert i; decide
@[simp] theorem regIdx_idxByte (i : Fin 16) : regIdx (idxByte i) = .ok i := by simp [regIdx]
@[simp] theorem flagIdx_idxByte (i : Fin 16) : flagIdx (idxByte i) = .ok i := by simp [flagIdx]

theorem regIdx_eq_ok {b : Byte} {i : Fin 16} : regIdx b = .ok i ↔ b.toNat = i.val := by
  unfold regIdx idxOf
  split_ifs with h
  · simp [Fin.ext_iff]
  · simp only [false_iff]; omega

theorem regIdx_eq_error {b : Byte} {e : Raise} :
    regIdx b = .error e ↔ 15 < b.toNat ∧ e = ⟨.invalidRegisterIndex, b.toNat, .none⟩ := by
  unfold regIdx idxOf
  split_ifs with h
  · simp only [false_iff]; omega
  · simp only [Except.error.injEq]
    exact ⟨fun he => ⟨by omega, he.symm⟩, fun he => he.2.symm⟩

theorem flagIdx_eq_ok {b : Byte} {i : Fin 16} : flagIdx b = .ok i ↔ b.toNat = i.val := by
  unfold flagIdx idxOf
  split_ifs with h
  · simp [Fin.ext_iff]
  · simp only [false_iff]; omega

theorem flagIdx_eq_error {b : Byte} {e : Raise} :
    flagIdx b = .error e ↔ 15 < b.toNat ∧ e = ⟨.invalidFlagIndex, b.toNat, .none⟩ := by
  unfold flagIdx idxOf
  split_ifs with h
  · simp only [false_iff]; omega
  · simp only [Except.error.injEq]
    exact ⟨fun he => ⟨by omega, he.symm⟩, fun he => he.2.symm⟩

/-- A byte above 15 is no register index. -/
theorem regIdx_bad {b : Byte} (h : 15 < b.toNat) : regIdx b = .error ⟨.invalidRegisterIndex, b.toNat, .none⟩ :=
  regIdx_eq_error.mpr ⟨h, rfl⟩

/-- A byte above 15 is no flag index. -/
theorem flagIdx_bad {b : Byte} (h : 15 < b.toNat) : flagIdx b = .error ⟨.invalidFlagIndex, b.toNat, .none⟩ :=
  flagIdx_eq_error.mpr ⟨h, rfl⟩

/-! ### Checks -/

theorem ensure_eq_ok {c : Prop} [Decidable c] {r : Raise} {u : Unit} : ensure c r = .ok u ↔ c := by
  unfold ensure; split_ifs with h <;> simp [h]

theorem ensure_eq_error {c : Prop} [Decidable c] {r e : Raise} : ensure c r = .error e ↔ ¬c ∧ e = r := by
  unfold ensure; split_ifs with h <;> simp [h, eq_comm]

theorem checkRange_eq_ok {s : State} {a : Int} {n : Nat} {k : Access} {u : Unit} :
    s.checkRange a n k = .ok u ↔ 0 ≤ a ∧ a + n ≤ s.memSize := by
  unfold State.checkRange State.inRange
  split_ifs with h
  · exact ⟨fun _ => of_decide_eq_true h, fun _ => rfl⟩
  · exact ⟨fun e => (nomatch e), fun e => absurd (decide_eq_true e) h⟩

theorem checkRange_eq_error {s : State} {a : Int} {n : Nat} {k : Access} {e : Raise} :
    s.checkRange a n k = .error e ↔ ¬(0 ≤ a ∧ a + n ≤ s.memSize) ∧ e = outOfRange a k := by
  unfold State.checkRange State.inRange
  split_ifs with h
  · exact ⟨fun e => (nomatch e), fun e => absurd (of_decide_eq_true h) e.1⟩
  · exact ⟨fun e => ⟨fun c => h (decide_eq_true c), (Except.error.inj e).symm⟩, fun e => e.2 ▸ rfl⟩

/-! ### Memory accesses -/

theorem readByte_eq_ok {s : State} {a : Int} {k : Access} {b : Byte} :
    s.readByte a k = .ok b ↔ (0 ≤ a ∧ a + 1 ≤ s.memSize) ∧ b = s.byteAt a.toNat := by
  simp only [State.readByte, bind_eq_ok, checkRange_eq_ok, pure_eq_ok, Except.ok.injEq]
  exact ⟨fun ⟨_, h, e⟩ => ⟨h, e.symm⟩, fun ⟨h, e⟩ => ⟨(), h, e.symm⟩⟩

theorem readByte_eq_error {s : State} {a : Int} {k : Access} {e : Raise} :
    s.readByte a k = .error e ↔ ¬(0 ≤ a ∧ a + 1 ≤ s.memSize) ∧ e = outOfRange a k := by
  simp [State.readByte, bind_eq_error, checkRange_eq_error]

theorem readWord_eq_ok {s : State} {a : Int} {k : Access} {v : Word} :
    s.readWord a k = .ok v ↔ (0 ≤ a ∧ a + 2 ≤ s.memSize) ∧ v = s.wordAt a.toNat := by
  simp only [State.readWord, bind_eq_ok, checkRange_eq_ok, pure_eq_ok, Except.ok.injEq]
  exact ⟨fun ⟨_, h, e⟩ => ⟨h, e.symm⟩, fun ⟨h, e⟩ => ⟨(), h, e.symm⟩⟩

theorem readWord_eq_error {s : State} {a : Int} {k : Access} {e : Raise} :
    s.readWord a k = .error e ↔ ¬(0 ≤ a ∧ a + 2 ≤ s.memSize) ∧ e = outOfRange a k := by
  simp [State.readWord, bind_eq_error, checkRange_eq_error]

theorem writeWord_eq_ok {s : State} {a : Int} {v : Word} {t : State} :
    s.writeWord a v = .ok t ↔ (0 ≤ a ∧ a + 2 ≤ s.memSize) ∧ t = s.putWord a.toNat v := by
  simp only [State.writeWord, bind_eq_ok, checkRange_eq_ok, pure_eq_ok, Except.ok.injEq]
  exact ⟨fun ⟨_, h, e⟩ => ⟨h, e.symm⟩, fun ⟨h, e⟩ => ⟨(), h, e.symm⟩⟩

theorem writeWord_eq_error {s : State} {a : Int} {v : Word} {e : Raise} :
    s.writeWord a v = .error e ↔ ¬(0 ≤ a ∧ a + 2 ≤ s.memSize) ∧ e = outOfRange a .write := by
  simp [State.writeWord, bind_eq_error, checkRange_eq_error]

/-! ### Stack guards -/

theorem pushGuard_eq_ok {s : State} {u : Unit} : s.pushGuard = .ok u ↔ 2 ≤ s.sp := ensure_eq_ok

theorem pushGuard_eq_error {s : State} {e : Raise} :
    s.pushGuard = .error e ↔ ¬2 ≤ s.sp ∧ e = ⟨.stackOverflow, s.sp, .none⟩ := ensure_eq_error

theorem popGuard_eq_ok {s : State} {u : Unit} : s.popGuard = .ok u ↔ s.sp + 2 ≤ s.memSize := ensure_eq_ok

theorem popGuard_eq_error {s : State} {e : Raise} :
    s.popGuard = .error e ↔ ¬s.sp + 2 ≤ s.memSize ∧ e = ⟨.stackUnderflow, s.sp, .none⟩ := ensure_eq_error

/-! ### Running an effect -/

/-- Everything `execute` can do: the effect's state, or the fault of what it raised (60_exceptions R214). -/
theorem execute_cases {s t : State} {len : Nat} {effect : State → Except Raise State}
    (h : s.execute len effect = .next t) :
    effect (s.advance len) = .ok t ∨
      ∃ r, effect (s.advance len) = .error r ∧ t = (s.advance len).raise s.pc r := by
  unfold State.execute at h
  split at h
  · next u hu => cases h; exact .inl hu
  · next r hr => cases h; exact .inr ⟨r, hr, rfl⟩

/-- `execute` always answers a next state. -/
theorem execute_next (s : State) (len : Nat) (effect : State → Except Raise State) :
    ∃ t, s.execute len effect = .next t := by
  unfold State.execute
  split
  · exact ⟨_, rfl⟩
  · exact ⟨_, rfl⟩

theorem execute_ok {s t : State} {len : Nat} {effect : State → Except Raise State}
    (h : effect (s.advance len) = .ok t) : s.execute len effect = .next t := by
  simp [State.execute, h]

theorem execute_error {s : State} {len : Nat} {effect : State → Except Raise State} {r : Raise}
    (h : effect (s.advance len) = .error r) : s.execute len effect = .next ((s.advance len).raise s.pc r) := by
  simp [State.execute, h]

/-! ### Readings of a word -/

theorem zext_nonneg (v : Word) : 0 ≤ zext v := by unfold zext; omega

theorem zext_lt (v : Word) : zext v < 65536 := by unfold zext; have := v.isLt; omega

@[simp] theorem toNat_zext (v : Word) : (zext v).toNat = v.toNat := by simp [zext]

@[simp] theorem trunc16_zext (v : Word) : trunc16 (zext v) = v := by simp [trunc16, zext]

/-- `trunc16` of an integer in 0 to 65535 is that integer. -/
theorem zext_trunc16 {n : Int} (h0 : 0 ≤ n) (h1 : n < 65536) : zext (trunc16 n) = n := by
  simp only [zext, trunc16, BitVec.toNat_ofInt]
  omega

/-- The signed reading is the bit-vector library's. -/
theorem sext_eq_toInt (v : Word) : sext v = v.toInt := by
  simp only [sext, BitVec.toInt_eq_toNat_cond]; split_ifs <;> omega

/-- The sum that is stored is the 16-bit sum (43_arithmetic R154). -/
theorem addWords_eq (u v : Word) : addWords u v = u + v := by
  apply BitVec.eq_of_toNat_eq
  simp only [addWords, trunc16, zext, BitVec.toNat_ofInt, BitVec.toNat_add]; omega

/-- The difference that is stored is the 16-bit difference (43_arithmetic R154). -/
theorem subWords_eq (u v : Word) : subWords u v = u - v := by
  apply BitVec.eq_of_toNat_eq
  simp only [subWords, trunc16, zext, BitVec.toNat_ofInt, BitVec.toNat_sub]; have := u.isLt; have := v.isLt; omega

end Sys2Proof.Machine
end

