-- ==== Sys2Proof/Laws/Effects.lean ====
section
/-! SUPPORT. One spec lemma per instruction's effect: what it answers, exactly when. `t` has `pc` after the instruction. -/

namespace Sys2Proof.Machine

/-- The effect of an instruction, for claims over all of them. -/
def effectOf : Instr → State → Except Raise State
  | .push r => effPush r
  | .movMrR a r => effMovMrR a r
  | .movMrM a m => effMovMrM a m
  | .movMrC a c => effMovMrC a c
  | .movRR d r => effMovRR d r
  | .movRM d m => effMovRM d m
  | .movRC d c => effMovRC d c
  | .movRMr d a => effMovRMr d a
  | .subRR d r => effSubRR d r
  | .subRC d c => effSubRC d c
  | .addRR d r => effAddRR d r
  | .addRC d c => effAddRC d c
  | .cmp a b => effCmp a b
  | .flg d j => effFlg d j
  | .jnz r m => effJnz r m
  | .jmp m => effJmp m
  | .call a => effCall a
  | .pop r => effPop r
  | .ret => effRet
  | .hlt => effHlt

/-- Every meaning runs its effect over the instruction's length. -/
theorem exec_eq_execute (i : Instr) (s : State) : exec i s = s.execute i.length (effectOf i) := by
  cases i <;> rfl

/-- Everything a meaning can do: its effect's state, or the fault of what it raised. -/
theorem exec_cases {i : Instr} {s t : State} (h : exec i s = .next t) :
    effectOf i (s.advance i.length) = .ok t ∨
      ∃ r, effectOf i (s.advance i.length) = .error r ∧ t = (s.advance i.length).raise s.pc r :=
  execute_cases (exec_eq_execute i s ▸ h)

section
variable {p q : Byte} {w : Word} {t u : State}

theorem sp_eq (t : State) : t.sp = ((t.reg spIdx).toNat : Int) := rfl

theorem effPush_eq_ok : effPush p t = .ok u ↔ ∃ r : Fin 16, p.toNat = r.val ∧ 2 ≤ t.sp ∧ t.sp ≤ t.memSize ∧
    u = (t.setReg spIdx (trunc16 (t.sp - 2))).putWord (t.sp - 2).toNat
      ((t.setReg spIdx (trunc16 (t.sp - 2))).reg r) := by
  simp only [effPush, bind_eq_ok, regIdx_eq_ok, pushGuard_eq_ok, checkRange_eq_ok, writeWord_eq_ok, setReg_memSize]
  constructor
  · rintro ⟨r, hr, _, h1, _, h2, h3, rfl⟩
    exact ⟨r, hr, h1, by omega, rfl⟩
  · rintro ⟨r, hr, h1, h2, rfl⟩
    exact ⟨r, hr, (), h1, (), by omega, by omega, rfl⟩

theorem effPop_eq_ok : effPop p t = .ok u ↔ ∃ r : Fin 16, p.toNat = r.val ∧ t.sp + 2 ≤ t.memSize ∧
    u = (t.setReg r (t.wordAt t.sp.toNat)).setReg spIdx
      (trunc16 ((t.setReg r (t.wordAt t.sp.toNat)).sp + 2)) := by
  simp only [effPop, bind_eq_ok, regIdx_eq_ok, popGuard_eq_ok, readWord_eq_ok, pure_eq_ok, Except.ok.injEq]
  constructor
  · rintro ⟨r, hr, _, h1, v, ⟨h2, rfl⟩, rfl⟩
    exact ⟨r, hr, h1, rfl⟩
  · rintro ⟨r, hr, h1, rfl⟩
    exact ⟨r, hr, (), h1, _, ⟨⟨zext_nonneg _, h1⟩, rfl⟩, rfl⟩

theorem effMovMrR_eq_ok : effMovMrR p q t = .ok u ↔ ∃ a r : Fin 16, p.toNat = a.val ∧ q.toNat = r.val ∧
    t.eaReg a + 2 ≤ t.memSize ∧ u = t.putWord (t.reg a).toNat (t.reg r) := by
  simp only [effMovMrR, State.store, bind_eq_ok, regIdx_eq_ok, writeWord_eq_ok]
  constructor
  · rintro ⟨a, ha, r, hr, h, rfl⟩
    exact ⟨a, r, ha, hr, h.2, by simp [State.eaReg]⟩
  · rintro ⟨a, r, ha, hr, h, rfl⟩
    exact ⟨a, ha, r, hr, ⟨zext_nonneg _, h⟩, by simp [State.eaReg]⟩

theorem effMovMrM_eq_ok : effMovMrM p w t = .ok u ↔ ∃ a : Fin 16, p.toNat = a.val ∧ eaAbs w + 2 ≤ t.memSize ∧
    t.eaReg a + 2 ≤ t.memSize ∧ u = t.putWord (t.reg a).toNat (t.wordAt w.toNat) := by
  simp only [effMovMrM, State.store, State.load, bind_eq_ok, regIdx_eq_ok, checkRange_eq_ok, readWord_eq_ok, writeWord_eq_ok]
  constructor
  · rintro ⟨a, ha, _, h1, _, h2, v, ⟨-, rfl⟩, -, rfl⟩
    exact ⟨a, ha, h1.2, h2.2, by simp [State.eaReg, eaAbs]⟩
  · rintro ⟨a, ha, h1, h2, rfl⟩
    exact ⟨a, ha, (), ⟨zext_nonneg _, h1⟩, (), ⟨zext_nonneg _, h2⟩, _, ⟨⟨zext_nonneg _, h1⟩, rfl⟩, ⟨zext_nonneg _, h2⟩,
      by simp [State.eaReg, eaAbs]⟩

theorem effMovMrC_eq_ok : effMovMrC p w t = .ok u ↔ ∃ a : Fin 16, p.toNat = a.val ∧
    t.eaReg a + 2 ≤ t.memSize ∧ u = t.putWord (t.reg a).toNat w := by
  simp only [effMovMrC, State.store, bind_eq_ok, regIdx_eq_ok, writeWord_eq_ok]
  constructor
  · rintro ⟨a, ha, h, rfl⟩
    exact ⟨a, ha, h.2, by simp [State.eaReg]⟩
  · rintro ⟨a, ha, h, rfl⟩
    exact ⟨a, ha, ⟨zext_nonneg _, h⟩, by simp [State.eaReg]⟩

theorem effMovRR_eq_ok : effMovRR p q t = .ok u ↔ ∃ d r : Fin 16, p.toNat = d.val ∧ q.toNat = r.val ∧
    u = t.setReg d (t.reg r) := by
  simp only [effMovRR, bind_eq_ok, regIdx_eq_ok, pure_eq_ok, Except.ok.injEq]
  exact ⟨fun ⟨d, hd, r, hr, e⟩ => ⟨d, r, hd, hr, e.symm⟩, fun ⟨d, r, hd, hr, e⟩ => ⟨d, hd, r, hr, e.symm⟩⟩

theorem effMovRM_eq_ok : effMovRM p w t = .ok u ↔ ∃ d : Fin 16, p.toNat = d.val ∧ eaAbs w + 2 ≤ t.memSize ∧
    u = t.setReg d (t.wordAt w.toNat) := by
  simp only [effMovRM, State.load, bind_eq_ok, regIdx_eq_ok, readWord_eq_ok, pure_eq_ok, Except.ok.injEq]
  constructor
  · rintro ⟨d, hd, v, ⟨h, rfl⟩, rfl⟩
    exact ⟨d, hd, h.2, by simp [eaAbs]⟩
  · rintro ⟨d, hd, h, rfl⟩
    exact ⟨d, hd, _, ⟨⟨zext_nonneg _, h⟩, rfl⟩, by simp [eaAbs]⟩

theorem effMovRC_eq_ok : effMovRC p w t = .ok u ↔ ∃ d : Fin 16, p.toNat = d.val ∧ u = t.setReg d w := by
  simp only [effMovRC, bind_eq_ok, regIdx_eq_ok, pure_eq_ok, Except.ok.injEq]
  exact ⟨fun ⟨d, hd, e⟩ => ⟨d, hd, e.symm⟩, fun ⟨d, hd, e⟩ => ⟨d, hd, e.symm⟩⟩

theorem effMovRMr_eq_ok : effMovRMr p q t = .ok u ↔ ∃ d a : Fin 16, p.toNat = d.val ∧ q.toNat = a.val ∧
    t.eaReg a + 2 ≤ t.memSize ∧ u = t.setReg d (t.wordAt (t.reg a).toNat) := by
  simp only [effMovRMr, State.load, bind_eq_ok, regIdx_eq_ok, readWord_eq_ok, pure_eq_ok, Except.ok.injEq]
  constructor
  · rintro ⟨d, hd, a, ha, v, ⟨h, rfl⟩, rfl⟩
    exact ⟨d, a, hd, ha, h.2, by simp [State.eaReg]⟩
  · rintro ⟨d, a, hd, ha, h, rfl⟩
    exact ⟨d, hd, a, ha, _, ⟨⟨zext_nonneg _, h⟩, rfl⟩, by simp [State.eaReg]⟩

theorem effSubRR_eq_ok : effSubRR p q t = .ok u ↔ ∃ d r : Fin 16, p.toNat = d.val ∧ q.toNat = r.val ∧
    u = t.setReg d (subWords (t.reg d) (t.reg r)) := by
  simp only [effSubRR, bind_eq_ok, regIdx_eq_ok, pure_eq_ok, Except.ok.injEq]
  exact ⟨fun ⟨d, hd, r, hr, e⟩ => ⟨d, r, hd, hr, e.symm⟩, fun ⟨d, r, hd, hr, e⟩ => ⟨d, hd, r, hr, e.symm⟩⟩

theorem effSubRC_eq_ok : effSubRC p w t = .ok u ↔ ∃ d : Fin 16, p.toNat = d.val ∧
    u = t.setReg d (subWords (t.reg d) w) := by
  simp only [effSubRC, bind_eq_ok, regIdx_eq_ok, pure_eq_ok, Except.ok.injEq]
  exact ⟨fun ⟨d, hd, e⟩ => ⟨d, hd, e.symm⟩, fun ⟨d, hd, e⟩ => ⟨d, hd, e.symm⟩⟩

theorem effAddRR_eq_ok : effAddRR p q t = .ok u ↔ ∃ d r : Fin 16, p.toNat = d.val ∧ q.toNat = r.val ∧
    u = t.setReg d (addWords (t.reg d) (t.reg r)) := by
  simp only [effAddRR, bind_eq_ok, regIdx_eq_ok, pure_eq_ok, Except.ok.injEq]
  exact ⟨fun ⟨d, hd, r, hr, e⟩ => ⟨d, r, hd, hr, e.symm⟩, fun ⟨d, r, hd, hr, e⟩ => ⟨d, hd, r, hr, e.symm⟩⟩

theorem effAddRC_eq_ok : effAddRC p w t = .ok u ↔ ∃ d : Fin 16, p.toNat = d.val ∧
    u = t.setReg d (addWords (t.reg d) w) := by
  simp only [effAddRC, bind_eq_ok, regIdx_eq_ok, pure_eq_ok, Except.ok.injEq]
  exact ⟨fun ⟨d, hd, e⟩ => ⟨d, hd, e.symm⟩, fun ⟨d, hd, e⟩ => ⟨d, hd, e.symm⟩⟩

theorem effCmp_eq_ok : effCmp p q t = .ok u ↔ ∃ a b : Fin 16, p.toNat = a.val ∧ q.toNat = b.val ∧
    u = t.compare (t.reg a) (t.reg b) := by
  simp only [effCmp, bind_eq_ok, regIdx_eq_ok, pure_eq_ok, Except.ok.injEq]
  exact ⟨fun ⟨d, hd, r, hr, e⟩ => ⟨d, r, hd, hr, e.symm⟩, fun ⟨d, r, hd, hr, e⟩ => ⟨d, hd, r, hr, e.symm⟩⟩

theorem effFlg_eq_ok : effFlg p q t = .ok u ↔ ∃ d j : Fin 16, p.toNat = d.val ∧ q.toNat = j.val ∧
    u = t.setReg d (flagWord (t.flag j)) := by
  simp only [effFlg, bind_eq_ok, regIdx_eq_ok, flagIdx_eq_ok, pure_eq_ok, Except.ok.injEq]
  exact ⟨fun ⟨d, hd, r, hr, e⟩ => ⟨d, r, hd, hr, e.symm⟩, fun ⟨d, r, hd, hr, e⟩ => ⟨d, hd, r, hr, e.symm⟩⟩

theorem effJnz_eq_ok : effJnz p w t = .ok u ↔ ∃ r : Fin 16, p.toNat = r.val ∧
    u = if t.reg r ≠ 0 then t.setPc w else t := by
  simp only [effJnz, bind_eq_ok, regIdx_eq_ok, pure_eq_ok, Except.ok.injEq]
  exact ⟨fun ⟨r, hr, e⟩ => ⟨r, hr, e.symm⟩, fun ⟨r, hr, e⟩ => ⟨r, hr, e.symm⟩⟩

theorem effJmp_eq_ok : effJmp w t = .ok u ↔ u = t.setPc w := by
  simp only [effJmp, pure_eq_ok, Except.ok.injEq]
  exact eq_comm

theorem effCall_eq_ok : effCall p t = .ok u ↔ ∃ a : Fin 16, p.toNat = a.val ∧
    u = (t.setReg lrIdx t.pc).setPc ((t.setReg lrIdx t.pc).reg a) := by
  simp only [effCall, bind_eq_ok, regIdx_eq_ok, pure_eq_ok, Except.ok.injEq, trunc16_zext]
  exact ⟨fun ⟨r, hr, e⟩ => ⟨r, hr, e.symm⟩, fun ⟨r, hr, e⟩ => ⟨r, hr, e.symm⟩⟩

theorem effRet_eq_ok : effRet t = .ok u ↔ u = t.setPc (t.reg lrIdx) := by
  simp only [effRet, pure_eq_ok, Except.ok.injEq]
  exact eq_comm

theorem effHlt_eq_ok : effHlt t = .ok u ↔ u = t.setFlag runSlot false := by
  simp only [effHlt, pure_eq_ok, Except.ok.injEq]
  exact eq_comm

end

end Sys2Proof.Machine
end

