-- ==== Sys2Proof/Laws/Fetch.lean ====
section
/-! SUPPORT. Everything the two fetches can do. -/

namespace Sys2Proof.Machine

/-- A byte fetch answers exactly when `pc` is inside memory (40_loop R104). -/
theorem fetch8_eq_ok {s t : State} {b : Byte} :
    s.fetch8 = .ok (b, t) ↔ s.pc.toNat + 1 ≤ s.memSize ∧ b = s.byteAt s.pc.toNat ∧ t = s.advance 1 := by
  unfold State.fetch8
  split
  · next c hc =>
    obtain ⟨⟨_, h⟩, rfl⟩ := readByte_eq_ok.mp hc
    simp only [zext] at h
    simp only [Except.ok.injEq, Prod.mk.injEq, toNat_zext]
    exact ⟨fun ⟨e, e'⟩ => ⟨by omega, e.symm, e'.symm⟩, fun ⟨_, e, e'⟩ => ⟨e.symm, e'.symm⟩⟩
  · next r hr =>
    obtain ⟨h, -⟩ := readByte_eq_error.mp hr
    simp only [zext] at h
    exact ⟨fun e => (nomatch e), fun e => absurd e.1 (by omega)⟩

/-- A byte fetch raises exactly when `pc` is not inside memory, and then consumes nothing (40_loop R104). -/
theorem fetch8_eq_error {s : State} {e : FetchStop} :
    s.fetch8 = .error e ↔ s.memSize ≤ s.pc.toNat ∧ e = (s, outOfRange (zext s.pc) .fetch) := by
  unfold State.fetch8
  split
  · next c hc =>
    obtain ⟨⟨_, h⟩, rfl⟩ := readByte_eq_ok.mp hc
    simp only [zext] at h
    exact ⟨fun e => (nomatch e), fun e => absurd e.1 (by omega)⟩
  · next r hr =>
    obtain ⟨h, rfl⟩ := readByte_eq_error.mp hr
    have := zext_nonneg s.pc
    simp only [zext] at h this
    exact ⟨fun e => ⟨by omega, (Except.error.inj e).symm⟩, fun e => e.2 ▸ rfl⟩

/-- A word fetch answers exactly when both bytes are inside memory (40_loop R105). -/
theorem fetch16_eq_ok {s t : State} {w : Word} :
    s.fetch16 = .ok (w, t) ↔ s.pc.toNat + 2 ≤ s.memSize ∧ w = s.wordAt s.pc.toNat ∧ t = s.advance 2 := by
  unfold State.fetch16
  split
  · next c hc =>
    obtain ⟨⟨_, h⟩, rfl⟩ := readWord_eq_ok.mp hc
    simp only [zext] at h
    simp only [Except.ok.injEq, Prod.mk.injEq, toNat_zext]
    exact ⟨fun ⟨e, e'⟩ => ⟨by omega, e.symm, e'.symm⟩, fun ⟨_, e, e'⟩ => ⟨e.symm, e'.symm⟩⟩
  · next r hr =>
    obtain ⟨h, -⟩ := readWord_eq_error.mp hr
    simp only [zext] at h
    exact ⟨fun e => (nomatch e), fun e => absurd e.1 (by omega)⟩

/-- A word fetch raises exactly when a byte of it is not inside memory, and then consumes nothing (40_loop R105). -/
theorem fetch16_eq_error {s : State} {e : FetchStop} :
    s.fetch16 = .error e ↔ s.memSize < s.pc.toNat + 2 ∧ e = (s, outOfRange (zext s.pc) .fetch) := by
  unfold State.fetch16
  split
  · next c hc =>
    obtain ⟨⟨_, h⟩, rfl⟩ := readWord_eq_ok.mp hc
    simp only [zext] at h
    exact ⟨fun e => (nomatch e), fun e => absurd e.1 (by omega)⟩
  · next r hr =>
    obtain ⟨h, rfl⟩ := readWord_eq_error.mp hr
    have := zext_nonneg s.pc
    simp only [zext] at h this
    exact ⟨fun e => ⟨by omega, (Except.error.inj e).symm⟩, fun e => e.2 ▸ rfl⟩

section
variable {α β : Type}

@[simp] theorem fetch_ok_bind (a : α) (f : α → Except FetchStop β) : (Except.ok a >>= f) = f a := rfl
@[simp] theorem fetch_error_bind (e : FetchStop) (f : α → Except FetchStop β) :
    ((Except.error e : Except FetchStop α) >>= f) = .error e := rfl
@[simp] theorem fetch_pure (a : α) : (pure a : Except FetchStop α) = .ok a := rfl

end

end Sys2Proof.Machine
end

