-- ==== Sys2Proof/Laws/PerInstr.lean ====
section
/-! SUPPORT. Facts of every instruction as syntax, one lemma per constructor. -/

/-- The encoding of an instruction has the length the opcode table gives it (30_encoding R80). -/
def Sys2Proof.Laws.EncodedLength.Statement (i : Sys2Proof.Instr) : Prop :=
  (Sys2Proof.encode i).length = i.length

namespace Sys2Proof.Laws.EncodedLength

theorem push (r : Byte) : Statement (.push r) := rfl
theorem movMrR (a s : Byte) : Statement (.movMrR a s) := rfl
theorem movMrM (a : Byte) (m : Word) : Statement (.movMrM a m) := rfl
theorem movMrC (a : Byte) (c : Word) : Statement (.movMrC a c) := rfl
theorem movRR (d s : Byte) : Statement (.movRR d s) := rfl
theorem movRM (d : Byte) (m : Word) : Statement (.movRM d m) := rfl
theorem movRC (d : Byte) (c : Word) : Statement (.movRC d c) := rfl
theorem movRMr (d a : Byte) : Statement (.movRMr d a) := rfl
theorem subRR (d s : Byte) : Statement (.subRR d s) := rfl
theorem subRC (d : Byte) (c : Word) : Statement (.subRC d c) := rfl
theorem addRR (d s : Byte) : Statement (.addRR d s) := rfl
theorem addRC (d : Byte) (c : Word) : Statement (.addRC d c) := rfl
theorem cmp (a b : Byte) : Statement (.cmp a b) := rfl
theorem flg (d j : Byte) : Statement (.flg d j) := rfl
theorem jnz (r : Byte) (m : Word) : Statement (.jnz r m) := rfl
theorem jmp (m : Word) : Statement (.jmp m) := rfl
theorem call (a : Byte) : Statement (.call a) := rfl
theorem pop (r : Byte) : Statement (.pop r) := rfl
theorem ret : Statement (.ret) := rfl
theorem hlt : Statement (.hlt) := rfl

end Sys2Proof.Laws.EncodedLength
end

