-- ==== Sys2Proof/Laws/Safety.lean ====
section
/-! SUPPORT. What the fetch widths of claims say: they add up to the instruction's length, and complete fetches take no more
bytes than are there. -/

namespace Sys2Proof.Machine

/-- The fetches of an instruction are all of its bytes (20_memory R49, 30_encoding R80). -/
theorem sum_fetchWidths (i : Instr) : (fetchWidths i).sum = i.length := by cases i <;> rfl

/-- Complete fetches consume no byte that is not there. -/
theorem completeFetches_le (ws : List Nat) (n : Nat) : completeFetches ws n ≤ n := by
  induction ws generalizing n with
  | nil => exact Nat.zero_le n
  | cons w ws ih =>
    unfold completeFetches
    split_ifs with h
    · have := ih (n - w)
      omega
    · exact Nat.zero_le n

/-- With every byte there, the fetches consume them all. -/
theorem completeFetches_sum (ws : List Nat) (n : Nat) (h : ws.sum ≤ n) : completeFetches ws n = ws.sum := by
  induction ws generalizing n with
  | nil => rfl
  | cons w ws ih =>
    rw [List.sum_cons] at h ⊢
    unfold completeFetches
    rw [if_pos (by omega), ih _ (by omega)]

end Sys2Proof.Machine
end

