-- ==== Sys2Proof/Laws/Step.lean ====
section
/-! SUPPORT. What a step can do, said once. -/

namespace Sys2Proof.Machine

/-- On a Running machine a step is the fetch, then the instruction's meaning or the fault of the fetch. -/
theorem step_running {s : State} (h : s.Running) :
    step s = match s.fetchInstr with
      | .ok (i, _) => exec i s
      | .error (t, r) => .next (t.raise s.pc r) := by
  unfold step
  rw [h.1]
  exact if_pos h.2

/-- Everything a step can do. -/
theorem step_cases {s t : State} (h : step s = .next t) :
    s.Running ∧ ((∃ i u, s.fetchInstr = .ok (i, u) ∧ exec i s = .next t) ∨
      ∃ u r, s.fetchInstr = .error (u, r) ∧ t = u.raise s.pc r) := by
  unfold step at h
  split at h
  · cases h
  · next hf =>
    split at h
    · next hr =>
      refine ⟨⟨hf, hr⟩, ?_⟩
      split at h
      · next i u hi => exact .inl ⟨i, u, hi, h⟩
      · next u r hi => cases h; exact .inr ⟨u, r, hi, rfl⟩
    · cases h

/-- A Halted machine has no step. -/
theorem step_halted {s : State} (h : s.fault = none) (h' : s.flag runSlot = false) : step s = .fault .machineHalted := by
  unfold step
  rw [h]
  simp [h']

/-- A Faulted machine has no step. -/
theorem step_faulted {s : State} {r : FaultRecord} (h : s.fault = some r) : step s = .fault (.machineFaulted r) := by
  unfold step
  rw [h]

end Sys2Proof.Machine
end

