-- ==== Sys2Proof/Tests/Slice0.lean ====
section
/-! SUPPORT. Small tests: well-formedness, one decoding per constructor written out from the opcode table of 30_encoding,
single steps whose expected values are the vectors of 95_test_vectors (V-...), and for every statement that has hypotheses a
witness that meets them. -/

namespace Sys2Proof.Tests

open Sys2Proof Sys2Proof.Machine

/-! ### Well-formedness: one ill-formed term for each check -/

theorem test_wf_push : (Instr.push 16).wf = false := by decide
theorem test_wf_movMrR_address : (Instr.movMrR 16 0).wf = false := by decide
theorem test_wf_movMrR_source : (Instr.movMrR 0 16).wf = false := by decide
theorem test_wf_movMrM : (Instr.movMrM 255 0).wf = false := by decide
theorem test_wf_movMrC : (Instr.movMrC 16 0).wf = false := by decide
theorem test_wf_movRR_destination : (Instr.movRR 16 0).wf = false := by decide
theorem test_wf_movRR_source : (Instr.movRR 0 16).wf = false := by decide
theorem test_wf_movRM : (Instr.movRM 16 0).wf = false := by decide
theorem test_wf_movRC : (Instr.movRC 16 0).wf = false := by decide
theorem test_wf_movRMr_destination : (Instr.movRMr 16 0).wf = false := by decide
theorem test_wf_movRMr_address : (Instr.movRMr 0 16).wf = false := by decide
theorem test_wf_subRR_destination : (Instr.subRR 16 0).wf = false := by decide
theorem test_wf_subRR_source : (Instr.subRR 0 16).wf = false := by decide
theorem test_wf_subRC : (Instr.subRC 16 0).wf = false := by decide
theorem test_wf_addRR_destination : (Instr.addRR 16 0).wf = false := by decide
theorem test_wf_addRR_source : (Instr.addRR 0 16).wf = false := by decide
theorem test_wf_addRC : (Instr.addRC 16 0).wf = false := by decide
theorem test_wf_cmp_first : (Instr.cmp 16 0).wf = false := by decide
theorem test_wf_cmp_second : (Instr.cmp 0 16).wf = false := by decide
theorem test_wf_flg_destination : (Instr.flg 16 0).wf = false := by decide
theorem test_wf_flg_slot : (Instr.flg 0 16).wf = false := by decide
theorem test_wf_jnz : (Instr.jnz 16 0).wf = false := by decide
theorem test_wf_call : (Instr.call 16).wf = false := by decide
theorem test_wf_pop : (Instr.pop 16).wf = false := by decide
theorem test_wf_accepts_greatest_indices : (Instr.flg 15 15).wf = true := by decide

/-! ### Decoding: the bytes of 30_encoding R80 and R81, and of the vectors -/

theorem test_decode_push : decode [0x00, 0x02] = .ok (.push 2, []) := rfl
theorem test_decode_movMrR : decode [0x01, 0x01, 0x02] = .ok (.movMrR 1 2, []) := rfl
theorem test_decode_movMrM : decode [0x02, 0x01, 0x00, 0x28] = .ok (.movMrM 1 40, []) := rfl
theorem test_decode_movMrC : decode [0x03, 0x01, 0xAA, 0xBB] = .ok (.movMrC 1 0xAABB, []) := rfl
theorem test_decode_movRR : decode [0x04, 0x05, 0x02] = .ok (.movRR 5 2, []) := rfl
theorem test_decode_movRM : decode [0x05, 0x02, 0x00, 0x3E] = .ok (.movRM 2 62, []) := rfl
theorem test_decode_movRC : decode [0x06, 0x00, 0x00, 0x05] = .ok (.movRC 0 5, []) := rfl
theorem test_decode_movRMr : decode [0x07, 0x03, 0x0D] = .ok (.movRMr 3 13, []) := rfl
theorem test_decode_subRR : decode [0x08, 0x00, 0x01] = .ok (.subRR 0 1, []) := rfl
theorem test_decode_subRC : decode [0x09, 0x00, 0xFF, 0xFE] = .ok (.subRC 0 0xFFFE, []) := rfl
theorem test_decode_addRR : decode [0x0A, 0x00, 0x01] = .ok (.addRR 0 1, []) := rfl
theorem test_decode_addRC : decode [0x0B, 0x02, 0x00, 0x01] = .ok (.addRC 2 1, []) := rfl
theorem test_decode_cmp : decode [0x0C, 0x00, 0x01] = .ok (.cmp 0 1, []) := rfl
theorem test_decode_flg : decode [0x0D, 0x02, 0x05] = .ok (.flg 2 5, []) := rfl
theorem test_decode_jnz : decode [0x0E, 0x00, 0x00, 0x08] = .ok (.jnz 0 8, []) := rfl
theorem test_decode_jmp : decode [0x0F, 0x12, 0x34] = .ok (.jmp 0x1234, []) := rfl
theorem test_decode_call : decode [0x10, 0x01] = .ok (.call 1, []) := rfl
theorem test_decode_pop : decode [0x11, 0x03] = .ok (.pop 3, []) := rfl
theorem test_decode_ret : decode [0x12] = .ok (.ret, []) := rfl
theorem test_decode_hlt : decode [0x13, 0x00] = .ok (.hlt, [0x00]) := rfl
theorem test_decode_undefined : decode [0x14, 0x00] = .error (.undefinedOpcode 0x14) := rfl
theorem test_decode_truncated : decode [0x06, 0x00, 0x00] = .error (.truncated 2) := rfl
/-- Three bytes of `MOV r0,c`: the opcode and the index are complete fetches, the word of which one byte is there is not. -/
theorem test_complete_fetches_of_half_a_word : completeFetches (fetchWidths (.movRC 0 0)) 3 = 2 := by decide
theorem test_table_word_first_byte_is_low : decodeTableWord 24 0x020A = some (.addRR 2 0) := by decide
theorem test_table_word_pads_with_zeros : decodeTableWord 8 0x0F = some (.jmp 0) := by decide
theorem test_table_word_undefined : decodeTableWord 8 0xFF = none := by decide

/-! ### Single steps -/

/-- The start state of a vector: fresh with `n` bytes, `bytes` stored from `ipc` on, `pc` there, the machine Running. -/
def vm (n ipc : Nat) (bytes : List Byte) : State :=
  { State.construct n with
    mem := Memory.writeBytes [] ipc bytes
    pc := BitVec.ofNat 16 ipc
    flags := (Vector.replicate 16 false).set 5 true }

/-- Override one register. -/
def withReg (s : State) (i : Fin 16) (v : Word) : State := s.setReg i v

/-- Override bytes of memory. -/
def withMem (s : State) (a : Nat) (bs : List Byte) : State := { s with mem := s.mem.writeBytes a bs }

/-- The next state, for projecting a few fields of it. -/
def nextOf : Result → Option State
  | .next t => some t
  | .fault _ => none
  | .refused _ => none

/-- A fault as the vectors write it: code, value, access, ipc, pc. -/
def faultOf (r : Result) : Option (Nat × Int × Access × Word × Word) :=
  (nextOf r).bind fun t => t.fault.map fun f => (f.code, f.value, f.access, f.ipc, f.pc)

-- V-S2, V-S5
theorem test_push_r13 : (nextOf (step (vm 64 10 [0x00, 0x0D]))).map (fun t => (t.reg 13, t.wordAt 62, t.pc)) =
    some (0x003E, 0x003E, 12) := by decide
theorem test_push_overflow : faultOf (step (withReg (vm 64 10 [0x00, 0x02]) 13 1)) = some (3, 1, .none, 10, 12) := by decide
-- V-S3, V-S6
theorem test_pop_r13 : (nextOf (step (withReg (vm 64 10 [0x11, 0x0D] |> (withMem · 60 [0x00, 0x10])) 13 60))).map
    (fun t => (t.reg 13, t.pc)) = some (0x0012, 12) := by decide
theorem test_pop_underflow : faultOf (step (withReg (vm 64 10 [0x11, 0x00]) 13 63)) = some (4, 63, .none, 10, 12) := by decide
-- V-M10, V-M11
theorem test_movMrR_last_word : (nextOf (step (withReg (withReg (vm 64 10 [0x01, 0x01, 0x02]) 1 62) 2 0x0102))).map
    (fun t => (t.byteAt 62, t.byteAt 63, t.pc)) = some (0x01, 0x02, 13) := by decide
theorem test_movMrR_half_outside : faultOf (step (withReg (withReg (vm 64 10 [0x01, 0x01, 0x02]) 1 63) 2 0x0102)) =
    some (1, 63, .write, 10, 13) := by decide
-- V-M2, V-F12
theorem test_movMrM_overlapping :
    (nextOf (step (withReg (withMem (vm 64 10 [0x02, 0x01, 0x00, 0x28]) 40 [0x11, 0x22, 0x33]) 1 41))).map
    (fun t => (t.byteAt 40, t.byteAt 41, t.byteAt 42)) = some (0x11, 0x11, 0x22) := by decide
theorem test_movMrM_read_first : faultOf (step (withReg (vm 32 4 [0x02, 0x01, 0x00, 0x1F]) 1 0xFFFF)) =
    some (1, 31, .read, 4, 8) := by decide
-- V-M9, V-M7
theorem test_movMrC_odd_address : (nextOf (step (withReg (vm 64 10 [0x03, 0x01, 0xAB, 0xCD]) 1 0x0031))).map
    (fun t => (t.byteAt 49, t.byteAt 50)) = some (0xAB, 0xCD) := by decide
theorem test_movMrC_unsigned_address : faultOf (step (withReg (vm 64 10 [0x03, 0x01, 0xAA, 0xBB]) 1 0x8000)) =
    some (1, 32768, .write, 10, 14) := by decide
-- V-M8, V-M15
theorem test_movRR : (nextOf (step (withReg (vm 64 10 [0x04, 0x05, 0x02]) 2 0xBEEF))).map (fun t => (t.reg 5, t.reg 2, t.pc)) =
    some (0xBEEF, 0xBEEF, 13) := by decide
theorem test_movRR_first_bad_operand : faultOf (step (vm 64 10 [0x04, 0x10, 0x11])) = some (5, 16, .none, 10, 13) := by decide
-- V-M4, V-M5
theorem test_movRM_last_word : (nextOf (step (withMem (vm 64 10 [0x05, 0x02, 0x00, 0x3E]) 62 [0xDE, 0xAD]))).map
    (fun t => (t.reg 2, t.pc)) = some (0xDEAD, 14) := by decide
theorem test_movRM_half_outside : faultOf (step (vm 64 10 [0x05, 0x02, 0x00, 0x3F])) = some (1, 63, .read, 10, 14) := by decide
-- V-M6, V-M12
theorem test_movRC : (nextOf (step (vm 64 10 [0x06, 0x00, 0xFF, 0xFF]))).map (fun t => (t.reg 0, t.pc)) =
    some (0xFFFF, 14) := by decide
theorem test_movRC_r13 : (nextOf (step (vm 64 10 [0x06, 0x0D, 0x00, 0x20]))).map (fun t => (t.reg 13, t.fault)) =
    some (0x0020, none) := by decide
-- V-M3
theorem test_movRMr_same_register : (nextOf (step (withReg (withMem (vm 64 10 [0x07, 0x01, 0x01]) 48 [0xAB, 0xCD]) 1 0x0030))).map
    (fun t => (t.reg 1, t.pc)) = some (0xABCD, 13) := by decide
-- V-A4, V-A5
theorem test_subRR_borrow : (nextOf (step (withReg (vm 64 10 [0x08, 0x00, 0x01]) 1 1))).map (fun t => (t.reg 0, t.pc)) =
    some (0xFFFF, 13) := by decide
theorem test_subRR_same_register : (nextOf (step (withReg (vm 64 10 [0x08, 0x03, 0x03]) 3 0x1234))).map (fun t => t.reg 3) =
    some 0 := by decide
-- V-A6, V-A8
theorem test_subRC_wraps : (nextOf (step (withReg (vm 64 10 [0x09, 0x00, 0xFF, 0xFF]) 0 5))).map (fun t => (t.reg 0, t.pc)) =
    some (0x0006, 14) := by decide
theorem test_subRC_signed_overflow : (nextOf (step (withReg (vm 64 10 [0x09, 0x00, 0x00, 0x01]) 0 0x8000))).map
    (fun t => t.reg 0) = some 0x7FFF := by decide
-- V-A14, V-A3
theorem test_addRR_writes_no_flag :
    (nextOf (step (((withReg (withReg (vm 64 10 [0x0A, 0x00, 0x01]) 0 0xFFFF) 1 1).setFlag 0 true).setFlag 4 true))).map
    (fun t => (t.reg 0, t.flag 0, t.flag 2, t.flag 4)) = some (0x0000, true, false, true) := by decide
theorem test_addRR_same_register : (nextOf (step (withReg (vm 64 10 [0x0A, 0x01, 0x01]) 1 0x8000))).map
    (fun t => (t.reg 1, t.pc)) = some (0x0000, 13) := by decide
-- V-A7, V-A10
theorem test_addRC_wraps : (nextOf (step (withReg (vm 64 10 [0x0B, 0x00, 0xFF, 0xFF]) 0 5))).map (fun t => (t.reg 0, t.pc)) =
    some (0x0004, 14) := by decide
theorem test_addRC_r13 : (nextOf (step (withReg (vm 64 10 [0x0B, 0x0D, 0x00, 0x02]) 13 62))).map
    (fun t => (t.reg 13, t.fault)) = some (0x0040, none) := by decide
-- V-C5, V-C7
theorem test_cmp_is_signed : (nextOf (step (withReg (withReg (vm 64 10 [0x0C, 0x00, 0x01]) 0 0x8000) 1 0x7FFF))).map
    (fun t => (t.flag 0, t.flag 2, t.flag 4, t.pc)) = some (true, false, false, 13) := by decide
theorem test_cmp_clears_stale_slots :
    (nextOf (step (((withReg (vm 64 10 [0x0C, 0x02, 0x02]) 2 0x9999).setFlag 0 true).setFlag 2 true))).map
    (fun t => (t.flag 0, t.flag 2, t.flag 4)) = some (false, false, true) := by decide
-- V-G2, V-G5
theorem test_flg_writes_whole_register : (nextOf (step ((withReg (vm 64 10 [0x0D, 0x02, 0x02]) 2 0xFFFF).setFlag 0 true))).map
    (fun t => (t.reg 2, t.flag 0, t.pc)) = some (0x0000, true, 13) := by decide
theorem test_flg_bad_slot : faultOf (step (withReg (vm 64 10 [0x0D, 0x04, 0x10]) 4 7)) = some (6, 16, .none, 10, 13) := by decide
-- V-J3, V-J2
theorem test_jnz_sign_bit_only : (nextOf (step (withReg (vm 64 15 [0x0E, 0x00, 0x00, 0x08]) 0 0x8000))).map (fun t => t.pc) =
    some 8 := by decide
theorem test_jnz_not_taken : (nextOf (step (vm 64 15 [0x0E, 0x00, 0x00, 0x08]))).map (fun t => t.pc) = some 19 := by decide
-- V-J4, V-J12
theorem test_jmp : (nextOf (step (vm 64 5 [0x0F, 0x00, 0x20]))).map (fun t => t.pc) = some 32 := by decide
theorem test_jmp_outside_completes : (nextOf (step (vm 64 5 [0x0F, 0xFF, 0xFF]))).map (fun t => (t.pc, t.fault)) =
    some (0xFFFF, none) := by decide
-- V-J6, V-J9
theorem test_call_r11 : (nextOf (step (withReg (vm 64 10 [0x10, 0x0B]) 11 0x0030))).map (fun t => (t.reg 11, t.pc)) =
    some (0x000C, 12) := by decide
theorem test_call_last_bytes : (nextOf (step (withReg (vm 64 62 [0x10, 0x01]) 1 4))).map (fun t => (t.reg 11, t.pc)) =
    some (0x0040, 4) := by decide
-- V-J7
theorem test_ret : (nextOf (step (withReg (vm 64 25 [0x12]) 11 12))).map (fun t => (t.pc, t.reg 11)) = some (12, 12) := by decide
-- V-H2
theorem test_hlt_last_byte : (nextOf (step (vm 64 63 [0x13]))).map (fun t => (t.flag 5, t.pc, t.fault, t.runState)) =
    some (false, 64, none, .halted) := by decide
-- V-U1, V-F8, V-F9, V-J12
theorem test_undefined_opcode : faultOf (step (vm 64 10 [0x14])) = some (2, 20, .none, 10, 11) := by decide
theorem test_operand_cut_off : faultOf (step (vm 8 5 [0x06, 0x00, 0x00])) = some (1, 7, .fetch, 5, 7) := by decide
theorem test_start_at_end : faultOf (step (vm 8 8 [])) = some (1, 8, .fetch, 8, 8) := by decide
theorem test_fetch_far_outside : faultOf (step (vm 64 65535 [])) = some (1, 65535, .fetch, 65535, 65535) := by decide

/-! ### From reset -/

theorem test_reset_is_halted : step State.reset = .fault .machineHalted := rfl
theorem test_reset_stack_pointer : State.reset.reg 13 = 65535 := by decide
theorem test_reset_mem_wf : State.reset.mem.wf = true := rfl
/-- The word of `MOV r2,0x1234` placed at reset is what the next step runs. -/
theorem test_placed_word : (nextOf (step (State.reset.withFetchWord 32 0x34120206))).map (fun t => (t.reg 2, t.pc)) =
    some (0x1234, 4) := by decide

/-! ### Witnesses: for every statement with hypotheses, concrete values that meet all of them, at the ends of each range -/

/-- Stack pointer at each end of what `PUSH` and `POP` allow. -/
def spAt (v : Word) : State := withReg (vm 64 10 [0x00, 0x02, 0x11, 0x03]) 13 v

theorem running_vm (n ipc : Nat) (bs : List Byte) : (vm n ipc bs).Running := ⟨rfl, rfl⟩

theorem legal_vm : (vm 64 10 [0x0C, 0x00, 0x01]).Legal :=
  ⟨⟨by decide, by decide, by decide, by decide⟩, ⟨by decide, by decide, by decide, by decide⟩, fun _ h => nomatch h⟩

/-- At each side of each boundary: opcodes 20 and 19, nothing at all, every fetch of a four-byte form cut off, and the whole
form, which no longer is a proper prefix. -/
theorem witness_DecoderRefusesExactly :
    (20 ≤ (0x14 : Byte).toNat ∧ decode [0x14] = .error (.undefinedOpcode 0x14) ∧ decode [0xFF] = .error (.undefinedOpcode 0xFF)) ∧
    (¬20 ≤ (0x13 : Byte).toNat ∧ decode [0x13] = .ok (.hlt, [])) ∧
    (([] : List Byte) ++ [0x13] = encode .hlt ∧ decode [] = .error (.truncated 0)) ∧
    (([0x0E] : List Byte) ++ [0, 0, 8] = encode (.jnz 0 8) ∧ decode [0x0E] = .error (.truncated 1)) ∧
    (([0x0E, 0] : List Byte) ++ [0, 8] = encode (.jnz 0 8) ∧ decode [0x0E, 0] = .error (.truncated 2)) ∧
    (([0x0E, 0, 0] : List Byte) ++ [8] = encode (.jnz 0 8) ∧ decode [0x0E, 0, 0] = .error (.truncated 2)) ∧
    decode [0x0E, 0, 0, 8] = .ok (.jnz 0 8, []) :=
  ⟨⟨by decide, rfl, rfl⟩, ⟨by decide, rfl⟩, ⟨rfl, rfl⟩, ⟨rfl, rfl⟩, ⟨rfl, rfl⟩, ⟨rfl, rfl⟩, rfl⟩
theorem witness_WordReadIsBigEndian :
    (0 ≤ (62 : Int) ∧ 62 + 2 ≤ ((vm 64 0 []).memSize : Int)) ∧ ¬(0 ≤ (63 : Int) ∧ 63 + 2 ≤ ((vm 64 0 []).memSize : Int)) ∧
    ¬(0 ≤ (-1 : Int) ∧ -1 + 2 ≤ ((vm 64 0 []).memSize : Int)) := by decide
theorem witness_WordWriteIsBigEndian :
    (0 ≤ (0 : Int) ∧ 0 + 2 ≤ ((vm 64 0 []).memSize : Int)) ∧ ¬(0 ≤ (63 : Int) ∧ 63 + 2 ≤ ((vm 64 0 []).memSize : Int)) := by decide
theorem witness_RangeCheckIsExact :
    ((-1 : Int) < 0) ∧ (((vm 64 0 []).memSize : Int) < 64 + (1 : Nat)) ∧
    ¬((63 : Int) < 0 ∨ ((vm 64 0 []).memSize : Int) < 63 + (1 : Nat)) := by decide
theorem witness_MixedWidthsSeeStoredBytes : (0 : Nat) < 1 := by decide
theorem witness_CanonicalMemoriesReadAlikeAreEqual :
    Memory.wf [(3, 1)] = true ∧ Memory.wf ((Memory.write [] 4 9).write 3 1 |>.write 4 0) = true ∧
    ∀ a, Memory.read [(3, 1)] a = Memory.read ((Memory.write [] 4 9).write 3 1 |>.write 4 0) a :=
  ⟨by decide, by decide, fun _ => rfl⟩
theorem witness_ConstructedMemoryIsZero : 0 < 1 ∧ 65534 < 65535 := by decide
theorem witness_ConstructedMachineIsHalted :
    (1 ≤ 1 ∧ 1 ≤ 65535) ∧ (1 ≤ 65535 ∧ 65535 ≤ 65535) ∧ ¬(1 ≤ 0 ∧ 0 ≤ 65535) ∧ ¬(1 ≤ 65536 ∧ 65536 ≤ 65535) := by decide
theorem witness_ConstructedMachineIsLegal : hostConstruct 65535 = .ok (State.construct 65535) := rfl
theorem witness_StepKeepsLegal : ∃ t, (vm 64 10 [0x0C, 0x00, 0x01]).Legal ∧ step (vm 64 10 [0x0C, 0x00, 0x01]) = .next t :=
  ⟨_, legal_vm, rfl⟩
theorem legal_construct_64 : (State.construct 64).Legal :=
  ⟨⟨by decide, by decide, by decide, by decide⟩, ⟨by decide, by decide, by decide, by decide⟩, fun _ h => nomatch h⟩
theorem witness_HostMovesKeepLegal :
    ∃ t u, (State.construct 64).Legal ∧ (State.construct 64).hostLoad [0x13] 63 = .ok t ∧
      (State.construct 64).runEntry 65535 = .ok u := ⟨_, _, legal_construct_64, rfl, rfl⟩

theorem witness_ByteFetchRule : (vm 64 63 []).memSize ≤ 65535 ∧ (vm 64 63 []).pc.toNat < (vm 64 63 []).memSize ∧
    (vm 64 64 []).memSize ≤ (vm 64 64 []).pc.toNat := by decide
theorem witness_WordFetchRule : (vm 64 62 []).memSize ≤ 65535 ∧ (vm 64 62 []).pc.toNat + 2 ≤ (vm 64 62 []).memSize ∧
    (vm 64 63 []).memSize < (vm 64 63 []).pc.toNat + 2 := by decide
theorem witness_FetchAgreesWithDecoder :
    (vm 64 63 [0x13]).memSize ≤ 65535 ∧ decode (vm 64 63 [0x13]).stream = .ok (.hlt, []) ∧
    decode (vm 64 63 [0xFF]).stream = .error (.undefinedOpcode 0xFF) ∧ decode (vm 64 64 []).stream = .error (.truncated 0) ∧
    decode (vm 64 61 [0x06]).stream = .error (.truncated 2) :=
  ⟨by decide, rfl, rfl, rfl, rfl⟩
theorem witness_StepRunsDecodedInstruction :
    (vm 64 61 [0x0A, 0x00, 0x10]).memSize ≤ 65535 ∧ (vm 64 61 [0x0A, 0x00, 0x10]).Running ∧
    decode (vm 64 61 [0x0A, 0x00, 0x10]).stream = .ok (.addRR 0 16, []) := ⟨by decide, running_vm _ _ _, rfl⟩
theorem witness_CutOffInstructionFaults :
    (vm 64 61 [0x06]).memSize ≤ 65535 ∧ (vm 64 61 [0x06]).Running ∧ decode (vm 64 61 [0x06]).stream = .error (.truncated 2) ∧
    decode (vm 64 64 []).stream = .error (.truncated 0) := ⟨by decide, running_vm _ _ _, rfl, rfl⟩
theorem witness_UndefinedOpcodeFaults :
    (vm 64 63 [0x14]).memSize ≤ 65535 ∧ (vm 64 63 [0x14]).Running ∧ (vm 64 63 [0x14]).pc.toNat < (vm 64 63 [0x14]).memSize ∧
    20 ≤ ((vm 64 63 [0x14]).byteAt (vm 64 63 [0x14]).pc.toNat).toNat := ⟨by decide, running_vm _ _ _, by decide, by decide⟩
theorem witness_PcStaysInsideMemory :
    ∃ t, (vm 64 63 [0x13]).memSize ≤ 65535 ∧ (vm 64 63 [0x13]).Running ∧ step (vm 64 63 [0x13]) = .next t :=
  ⟨_, by decide, running_vm _ _ _, rfl⟩

theorem witness_PushStoresBelowStackPointer :
    (2 ≤ ((spAt 2).reg spIdx).toNat ∧ ((spAt 2).reg spIdx).toNat ≤ (spAt 2).memSize) ∧
    (2 ≤ ((spAt 64).reg spIdx).toNat ∧ ((spAt 64).reg spIdx).toNat ≤ (spAt 64).memSize) := by decide
theorem witness_PopLoadsFromStackPointer :
    (((spAt 62).reg spIdx).toNat + 2 ≤ (spAt 62).memSize ∧ (spAt 62).memSize ≤ 65535) ∧ (3 : Fin 16) ≠ spIdx ∧
    (13 : Fin 16) = spIdx := by decide
theorem witness_PushThenPopRestores :
    2 ≤ ((spAt 2).reg spIdx).toNat ∧ ((spAt 2).reg spIdx).toNat ≤ (spAt 2).memSize ∧ (spAt 2).memSize ≤ 65535 := by decide
theorem witness_StackIsLastInFirstOut :
    (0 : Fin 16) ≠ spIdx ∧ (1 : Fin 16) ≠ spIdx ∧ (14 : Fin 16) ≠ spIdx ∧ (15 : Fin 16) ≠ spIdx ∧ (14 : Fin 16) ≠ 15 ∧
    4 ≤ ((spAt 4).reg spIdx).toNat ∧ ((spAt 4).reg spIdx).toNat ≤ (spAt 4).memSize ∧ (spAt 4).memSize ≤ 65535 := by decide
theorem witness_RegisterIndirectStores : ((withReg (vm 64 0 []) 1 62).reg 1).toNat + 2 ≤ (withReg (vm 64 0 []) 1 62).memSize := by
  decide
theorem witness_MemoryToMemoryCopies :
    ((withReg (vm 64 0 []) 1 62).reg 1).toNat + 2 ≤ (withReg (vm 64 0 []) 1 62).memSize ∧
    (61 : Word).toNat + 2 ≤ (withReg (vm 64 0 []) 1 62).memSize := by decide
theorem witness_LoadsReadTheWord :
    (62 : Word).toNat + 2 ≤ (withReg (vm 64 0 []) 1 62).memSize ∧
    ((withReg (vm 64 0 []) 1 62).reg 1).toNat + 2 ≤ (withReg (vm 64 0 []) 1 62).memSize := by decide
theorem witness_JumpIfNotZero : (withReg (vm 64 0 []) 0 0x8000).reg 0 ≠ 0 ∧ (vm 64 0 []).reg 0 = 0 := by decide
theorem witness_JumpRule :
    ((vm 64 62 [0x0F]).memSize ≤ 65535 ∧ (vm 64 62 [0x0F]).Running ∧ (vm 64 62 [0x0F]).byteAt (vm 64 62 [0x0F]).pc.toNat = 0x0F ∧
      (vm 64 62 [0x0F]).pc.toNat < (vm 64 62 [0x0F]).memSize ∧ (vm 64 62 [0x0F]).memSize < (vm 64 62 [0x0F]).pc.toNat + 3) ∧
    ∃ t, (vm 64 0 []).Running ∧ exec (.jmp 64) (vm 64 0 []) = .next t ∧ (vm 64 0 []).memSize ≤ (64 : Word).toNat :=
  ⟨⟨by decide, running_vm _ _ _, by decide, by decide, by decide⟩, _, running_vm _ _ _, rfl, by decide⟩
theorem witness_HaltRule : (vm 64 63 [0x13]).fault = none := rfl

theorem witness_FrameOfRegisterForms :
    ∃ t, (∀ u, storeAddress (.pop 3) u = none) ∧ assignsPc (.pop 3) = false ∧ exec (.pop 3) (spAt 62) = .next t :=
  ⟨_, fun _ => rfl, rfl, rfl⟩
theorem witness_FrameOfTransfers : ∃ t, assignsPc (.call 11) = true ∧ exec (.call 11) (vm 64 62 []) = .next t := ⟨_, rfl, rfl⟩
theorem witness_FrameOfStoringForms :
    ∃ t1 t2 t3 t4, exec (.push 13) (spAt 2) = .next t1 ∧ exec (.movMrR 1 1) (vm 64 10 []) = .next t2 ∧
      exec (.movMrM 1 62) (vm 64 10 []) = .next t3 ∧ exec (.movMrC 13 0xAABB) (spAt 62) = .next t4 :=
  ⟨_, _, _, _, rfl, rfl, rfl, rfl⟩
theorem witness_FlagWritersAndReaders :
    (State.construct 64).runState = .halted ∧
    (∃ t, exec (.cmp 0 1) (vm 64 10 []) = .next t ∧ t.flag 4 ≠ (vm 64 10 []).flag 4) ∧
    (∃ t, exec .hlt (vm 64 10 []) = .next t ∧ t.flag 5 ≠ (vm 64 10 []).flag 5) ∧
    (∃ t, (State.construct 64).runEntry 0 = .ok t ∧ t.flag 5 ≠ (State.construct 64).flag 5) ∧
    (∃ t, (∀ d j, Instr.jmp 7 ≠ .flg d j) ∧ exec (.jmp 7) (vm 64 10 []) = .next t) ∧ (vm 64 10 []).fault = none :=
  ⟨by decide, ⟨_, rfl, by decide⟩, ⟨_, rfl, by decide⟩, ⟨_, rfl, by decide⟩, ⟨_, (by simp), rfl⟩, rfl⟩
theorem witness_OnlyTransfersAssignPc :
    ∃ t, (vm 64 10 []).fault = none ∧ exec (.jnz 0 8) (withReg (vm 64 10 []) 0 1) = .next t := ⟨_, rfl, rfl⟩

theorem witness_BadIndexFaults :
    firstBadIndex (.flg 16 16) = some (16, .invalidRegisterIndex) ∧ firstBadIndex (.flg 15 16) = some (16, .invalidFlagIndex) ∧
    firstBadIndex (.flg 15 15) = none := by decide
theorem witness_StackOverflowRule :
    ((spAt 1).reg spIdx).toNat < 2 ∧ (spAt 1).fault = none ∧
    ∃ t f, exec (.push 2) (spAt 1) = .next t ∧ t.fault = some f ∧ f.kind = .stackOverflow :=
  ⟨by decide, rfl, _, _, rfl, rfl, rfl⟩
theorem witness_StackUnderflowRule :
    (spAt 63).memSize < ((spAt 63).reg spIdx).toNat + 2 ∧ (spAt 63).fault = none ∧
    ∃ t f, exec (.pop 0) (spAt 63) = .next t ∧ t.fault = some f ∧ f.kind = .stackUnderflow :=
  ⟨by decide, rfl, _, _, rfl, rfl, rfl⟩
theorem witness_StoresOutsideMemoryFault :
    (2 ≤ ((spAt 65).reg spIdx).toNat ∧ (spAt 65).memSize < ((spAt 65).reg spIdx).toNat) ∧
    (spAt 63).memSize < ((spAt 63).reg 13).toNat + 2 := by decide
theorem witness_LoadsOutsideMemoryFault :
    (spAt 63).memSize < (63 : Word).toNat + 2 ∧ (spAt 63).memSize < ((spAt 63).reg 13).toNat + 2 ∧
    (62 : Word).toNat + 2 ≤ (spAt 63).memSize := by decide
theorem witness_FaultMatrix :
    ∃ t f, (spAt 65).fault = none ∧ exec (.push 2) (spAt 65) = .next t ∧ t.fault = some f := ⟨_, _, rfl, rfl, rfl⟩
theorem witness_FaultIsFinal : ∃ f, ((spAt 1).raise 10 ⟨.stackOverflow, 1, .none⟩).fault = some f := ⟨_, rfl⟩

theorem witness_LoadIsAllOrNothing :
    ((State.construct 64).runState = .halted ∧ 0 ≤ (63 : Int) ∧ 63 + ([0x13] : List Byte).length ≤ ((State.construct 64).memSize : Int)) ∧
    ¬(0 ≤ (63 : Int) ∧ 63 + ([0x13, 0x13] : List Byte).length ≤ ((State.construct 64).memSize : Int)) ∧
    ¬(0 ≤ (-1 : Int) ∧ -1 + ([0x13] : List Byte).length ≤ ((State.construct 64).memSize : Int)) ∧
    (vm 64 10 []).runState = .running ∧ ((vm 64 10 []).raise 10 ⟨.undefinedOpcode, 20, .none⟩).runState = .faulted := by decide
theorem witness_RunEntrySetsPcAndFlag :
    (State.construct 64).runState = .halted ∧ (State.construct 64).memSize ≤ (64 : Word).toNat ∧
    (vm 64 10 []).runState = .running ∧ ((vm 64 10 []).raise 10 ⟨.undefinedOpcode, 20, .none⟩).runState = .faulted := by decide
theorem witness_SnapshotIsAllOfMemory :
    (State.construct 64).runState ≠ .running ∧ 63 < (State.construct 64).memSize ∧ (vm 64 10 []).runState = .running := by decide
theorem witness_RunLoopStopsOnlyWhenNotRunning :
    (∃ t, State.runLoop 1 (vm 64 63 [0x13]) = some t ∧ step (vm 64 63 [0x13]) = .next t) ∧ ¬(State.construct 64).Running :=
  ⟨⟨_, rfl, rfl⟩, fun h => nomatch h.2⟩
theorem witness_StoreIsSeenByNextFetch :
    (withReg (vm 64 58 []) 1 62).memSize ≤ 65535 ∧ (withReg (vm 64 58 []) 1 62).pc.toNat + 6 ≤ (withReg (vm 64 58 []) 1 62).memSize ∧
    ((withReg (vm 64 58 []) 1 62).reg 1).toNat = (withReg (vm 64 58 []) 1 62).pc.toNat + 4 := by decide
theorem witness_FlagSlotsAreIndependent : (5 : Fin 16) ≠ 4 := by decide
theorem witness_PlacedWordRunsNext :
    State.reset.memSize ≤ 65535 ∧ State.reset.pc.toNat + maxLength ≤ State.reset.memSize ∧
    (vm 64 60 []).pc.toNat + maxLength ≤ (vm 64 60 []).memSize ∧ decodeTableWord 8 0x12 = some .ret := by decide

end Sys2Proof.Tests
end

section
/-! PROOFS. The statements of 10_state. -/

namespace Sys2Proof.Proofs
open Sys2Proof.Machine

/-- Settles O58 (10_state R21): the two cases of reading a slot after a write, the written slot and any other. -/
theorem flagSlotsAreIndependent : Obligations.FlagSlotsAreIndependent := by
  intro s i j b
  constructor
  · exact flag_setFlag_self s i b
  · exact flag_setFlag_ne s i j b

end Sys2Proof.Proofs
end

section
/-! PROOFS. The statements of 20_memory. -/

namespace Sys2Proof.Proofs
open Sys2Proof.Machine

/-! ### The two bytes of a word as numbers -/

theorem toNat_hiByte (v : Word) : (hiByte v).toNat = v.toNat / 256 := by
  have hv : v.toNat < 65536 := v.isLt
  rw [hiByte, BitVec.extractLsb'_toNat, Nat.shiftRight_eq_div_pow]
  omega

theorem toNat_loByte (v : Word) : (loByte v).toNat = v.toNat % 256 := by
  rw [loByte, BitVec.extractLsb'_toNat, Nat.shiftRight_zero]

/-! ### What putting a word stores and what it leaves unchanged -/

theorem byteAt_putWord_hi (s : State) (a : Nat) (v : Word) : (s.putWord a v).byteAt a = hiByte v := by
  rw [byteAt_putWord, if_neg (by omega), if_pos rfl]

theorem byteAt_putWord_lo (s : State) (a : Nat) (v : Word) : (s.putWord a v).byteAt (a + 1) = loByte v := by
  rw [byteAt_putWord, if_pos rfl]

theorem byteAt_putWord_ne (s : State) {a b : Nat} (v : Word) (hi : b ≠ a) (lo : b ≠ a + 1) :
    (s.putWord a v).byteAt b = s.byteAt b := by
  rw [byteAt_putWord, if_neg lo, if_neg hi]

theorem sameBytesOutsideWord_putWord (s : State) (a : Nat) (v : Word) : SameBytesOutsideWord s (s.putWord a v) a :=
  fun _ outside => byteAt_putWord_ne s v (by omega) (by omega)

theorem frame_putWord (s : State) (a : Nat) (v : Word) : Frame s (s.putWord a v) [] [] :=
  ⟨fun _ _ => reg_putWord .., fun _ _ => flag_putWord .., putWord_memSize .., putWord_fault ..⟩

/-- Settles O5 (20_memory R46): a write that passes the range check is `putWord`, and the others raise. -/
theorem wordWriteIsBigEndian : Obligations.WordWriteIsBigEndian := by
  intro s a v
  constructor
  · intro inside
    have ha : (a.toNat : Int) = a := Int.toNat_of_nonneg inside.1
    have others : SameBytesOutsideWord s (s.putWord a.toNat v) a := ha ▸ sameBytesOutsideWord_putWord s a.toNat v
    refine ⟨s.putWord a.toNat v, writeWord_eq_ok.mpr ⟨inside, rfl⟩, ?_, ?_, others, frame_putWord .., putWord_pc ..⟩
    · rw [byteAt_putWord_hi, toNat_hiByte]
    · rw [byteAt_putWord_lo, toNat_loByte]
  · intro outside
    exact writeWord_eq_error.mpr ⟨outside, rfl⟩

end Sys2Proof.Proofs
end

section
/-! PROOFS. The statements of 45_control_flow. -/

namespace Sys2Proof.Proofs
open Sys2Proof.Machine

/-! ### The unconditional transfers assign `pc` and nothing else -/

theorem exec_jmp (m : Word) (s : State) : exec (.jmp m) s = .next (s.setPc m) :=
  (exec_eq_execute (.jmp m) s).trans (execute_ok (effJmp_eq_ok.mpr rfl))

theorem exec_ret (s : State) : exec .ret s = .next (s.setPc (s.reg lrIdx)) :=
  (exec_eq_execute .ret s).trans (execute_ok (effRet_eq_ok.mpr rfl))

theorem running_setPc {s : State} (m : Word) (run : s.Running) : (s.setPc m).Running := run

/-! ### Fetches that fault -/

theorem toNat_pc_advance {s : State} {n : Nat} (h : s.pc.toNat + n ≤ 65535) :
    (s.advance n).pc.toNat = s.pc.toNat + n := by
  rw [advance_pc, BitVec.toNat_add, BitVec.toNat_ofNat]
  omega

/-- A step whose instruction fetch raises takes that fault, at the address of the opcode (60_exceptions R214). -/
theorem step_fetchInstr_error {s u : State} {r : Raise} (run : s.Running) (h : s.fetchInstr = .error (u, r)) :
    step s = .next (u.raise s.pc r) := by
  rw [step_running run, h]

/-- The fault of a fetch after `n` fetched bytes is the faulted state of claims. -/
theorem raise_advance_outOfRange (s : State) (n : Nat) (a : Int) (k : Access) :
    (s.advance n).raise s.pc (outOfRange a k) = s.faultedAfter n .outOfRangeMemoryAccess a k := rfl

theorem advance_zero (s : State) : s.advance 0 = s := by
  simp [State.advance, State.setPc]

/-- With `pc` at or beyond N there is no opcode byte to fetch (40_loop R104). -/
theorem fetchInstr_pc_outside {s : State} (outside : s.memSize ≤ s.pc.toNat) :
    s.fetchInstr = .error (s, outOfRange (zext s.pc) .fetch) := by
  rw [State.fetchInstr, fetch8_eq_error.mpr ⟨outside, rfl⟩, fetch_error_bind]

theorem step_pc_outside {s : State} (run : s.Running) (outside : s.memSize ≤ s.pc.toNat) :
    step s = .next (s.faultedAfter 0 .outOfRangeMemoryAccess s.pc.toNat .fetch) := by
  rw [step_fetchInstr_error run (fetchInstr_pc_outside outside), ← raise_advance_outOfRange, advance_zero]
  rfl

/-- An instruction of format W whose word is not wholly inside memory: the opcode alone is fetched (40_loop R105). -/
theorem fetchInstr_formatW_cutOff {s : State} {f : Word → Instr} (inside : s.pc.toNat + 1 ≤ s.memSize)
    (shape : opcodeTable (s.byteAt s.pc.toNat) = some (.w f)) (cut : s.memSize < (s.advance 1).pc.toNat + 2) :
    s.fetchInstr = .error (s.advance 1, outOfRange (zext (s.advance 1).pc) .fetch) := by
  have opcode : s.fetch8 = .ok (s.byteAt s.pc.toNat, s.advance 1) := fetch8_eq_ok.mpr ⟨inside, rfl, rfl⟩
  have operand : (s.advance 1).fetch16 = .error (s.advance 1, outOfRange (zext (s.advance 1).pc) .fetch) :=
    fetch16_eq_error.mpr ⟨cut, rfl⟩
  simp only [State.fetchInstr, opcode, fetch_ok_bind, shape, fetchOperands, operand, fetch_error_bind]

/-- The operand of a `JMP` is one word fetch, which consumes no byte when one of its two is missing (45_control_flow R171). -/
theorem step_jmp_cutOff {s : State} (size : s.memSize ≤ 65535) (run : s.Running)
    (opcode : s.byteAt s.pc.toNat = 0x0F) (inside : s.pc.toNat < s.memSize) (cut : s.memSize < s.pc.toNat + 3) :
    step s = .next (s.faultedAfter 1 .outOfRangeMemoryAccess (s.pc.toNat + 1) .fetch) := by
  have operandAt : (s.advance 1).pc.toNat = s.pc.toNat + 1 := toNat_pc_advance (by omega)
  have shape : opcodeTable (s.byteAt s.pc.toNat) = some (.w .jmp) := by rw [opcode]; rfl
  have fetched := fetchInstr_formatW_cutOff inside shape (by omega)
  rw [step_fetchInstr_error run fetched, raise_advance_outOfRange, zext, operandAt, Nat.cast_add, Nat.cast_one]

/-! ### The rules of `JMP` and `RET` -/

/-- Settles O36 (45_control_flow R171): a completed `JMP` is `setPc`, and its two faults are those of the fetches. -/
theorem jumpRule : Obligations.JumpRule := by
  refine ⟨fun _ => rfl, fun s m => exec_jmp m s, fun _ => step_jmp_cutOff, ?_⟩
  intro s t m run jumped outside
  obtain rfl : s.setPc m = t := Host.Outcome.next.inj ((exec_jmp m s).symm.trans jumped)
  exact step_pc_outside (running_setPc m run) outside

/-- Settles O38 (45_control_flow R173): `RET` is `setPc` of the link register, which is register 11. -/
theorem returnRule : Obligations.ReturnRule :=
  ⟨rfl, exec_ret⟩

end Sys2Proof.Proofs
end

section
/-! PROOFS. The statements of 46_system. -/

namespace Sys2Proof.Proofs
open Sys2Proof.Machine

/-! ### What `HLT` does to the state -/

theorem exec_hlt (s : State) : exec .hlt s = .next ((s.advance 1).setFlag runSlot false) :=
  (exec_eq_execute .hlt s).trans (execute_ok (effHlt_eq_ok.mpr rfl))

theorem frame_advance_setFlag (s : State) (n : Nat) (j : Fin 16) (b : Bool) :
    Frame s ((s.advance n).setFlag j b) [] [j] := by
  refine ⟨fun _ _ => reg_setFlag .., ?_, setFlag_memSize .., setFlag_fault ..⟩
  intro i other
  exact flag_setFlag_ne (s.advance n) j i b (List.ne_of_not_mem_cons other)

/-! ### A Halted machine: the loop is over, and the run entry is open -/

theorem runState_halted {s : State} (noFault : s.fault = none) (cleared : s.flag runSlot = false) :
    s.runState = .halted := by
  simp [State.runState, noFault, cleared]

/-- The loop test fails at once, so no amount of fuel takes a step (40_loop R101, R103). -/
theorem runLoop_halted {s : State} (halted : s.runState = .halted) (fuel : Nat) : State.runLoop fuel s = some s := by
  cases fuel with
  | zero => simp [State.runLoop, halted]
  | succ n => simp [State.runLoop, halted]

theorem runEntry_halted {s : State} (halted : s.runState = .halted) (start : Word) :
    s.runEntry start = .ok ((s.setPc start).setFlag runSlot true) := by
  simp [State.runEntry, State.whenHalted, halted]

/-- The entry action leaves a Running machine, because it sets slot 5 and there is no fault (40_loop R100). -/
theorem running_setPc_setFlag {s : State} (noFault : s.fault = none) (start : Word) :
    ((s.setPc start).setFlag runSlot true).Running :=
  ⟨noFault, flag_setFlag_self ..⟩

/-! ### The rule of `HLT` -/

/-- Settles O40 (46_system R180): `HLT` leaves a machine with slot 5 cleared, which is Halted when there is no fault. -/
theorem haltRule : Obligations.HaltRule := by
  refine ⟨rfl, fun s => ?_⟩
  have cleared : ((s.advance 1).setFlag runSlot false).flag runSlot = false := flag_setFlag_self ..
  refine ⟨_, exec_hlt s, cleared, rfl, frame_advance_setFlag .., fun _ => byteAt_setFlag .., fun noFault => ?_⟩
  have halted := runState_halted (s := (s.advance 1).setFlag runSlot false) noFault cleared
  refine ⟨step_halted noFault cleared, runLoop_halted halted, fun start => ?_⟩
  have running := running_setPc_setFlag (s := (s.advance 1).setFlag runSlot false) noFault start
  exact ⟨_, runEntry_halted halted start, running.2, running⟩

end Sys2Proof.Proofs
end

section
/-! PROOFS. The statements of 30_encoding: the opcode table as one fact, then the decoder over its five formats. -/

namespace Sys2Proof.Proofs
open Sys2Proof.Machine

/-- Settles O1 (30_encoding R80, R81): every word is decoded by the table. -/
theorem writtenWordsDecode : Obligations.WrittenWordsDecode :=
  ⟨rfl, rfl, rfl, rfl, rfl, rfl, rfl, rfl, rfl, rfl, rfl, rfl, rfl⟩

/-! ### What a format makes of operand bytes -/

/-- A format makes an instruction of exactly these operand bytes (30_encoding R72, R73). -/
inductive Makes : Shape → List Byte → Instr → Prop
  | n (i : Instr) : Makes (.n i) [] i
  | r (f : Byte → Instr) (p : Byte) : Makes (.r f) [p] (f p)
  | rr (f : Byte → Byte → Instr) (p q : Byte) : Makes (.rr f) [p, q] (f p q)
  | rw (f : Byte → Word → Instr) (p : Byte) (w : Word) : Makes (.rw f) [p, hiByte w, loByte w] (f p w)
  | w (f : Word → Instr) (w : Word) : Makes (.w f) [hiByte w, loByte w] (f w)

/-- The widths of the fetches of a format, the opcode's first (20_memory R49). -/
def shapeWidths : Shape → List Nat
  | .n _ => [1]
  | .r _ => [1, 1]
  | .rr _ => [1, 1, 1]
  | .rw _ => [1, 1, 2]
  | .w _ => [1, 2]

theorem makes_rw_bytes (f : Byte → Word → Instr) (p hi lo : Byte) :
    Makes (.rw f) [p, hi, lo] (f p (joinBytes hi lo)) := by
  simpa using Makes.rw f p (joinBytes hi lo)

theorem makes_w_bytes (f : Word → Instr) (hi lo : Byte) : Makes (.w f) [hi, lo] (f (joinBytes hi lo)) := by
  simpa using Makes.w f (joinBytes hi lo)

/-! ### The opcode table -/

theorem opcodeTable_eq_none {op : Byte} : opcodeTable op = none ↔ 20 ≤ op.toNat := by
  have table : ∀ op : Byte, (opcodeTable op).isNone = decide (20 ≤ op.toNat) := by decide
  rw [← Option.isNone_iff_eq_none, table, decide_eq_true_iff]

theorem byte_eq_ofNat {op : Byte} {n : Nat} (h : op.toNat = n) : op = BitVec.ofNat 8 n := by
  rw [← h, BitVec.ofNat_toNat, BitVec.setWidth_eq]

/-- The table and the encoder say the same of every opcode (30_encoding R80). -/
theorem encode_eq_cons {op : Byte} {ops : List Byte} {i : Instr} :
    encode i = op :: ops ↔ ∃ shape, opcodeTable op = some shape ∧ Makes shape ops i := by
  constructor
  · intro h
    cases i <;> cases h <;> exact ⟨_, rfl, by constructor⟩
  · rintro ⟨shape, h, made⟩
    unfold opcodeTable at h
    split at h
    case h_21 => exact nomatch h
    all_goals
      next code =>
        obtain rfl := byte_eq_ofNat code
        cases h
        cases made
        rfl

/-- The fetch widths of an instruction are those of its format (20_memory R49). -/
theorem fetchWidths_of_encode {op : Byte} {ops : List Byte} {i : Instr} {shape : Shape} (h : encode i = op :: ops)
    (row : opcodeTable op = some shape) : fetchWidths i = shapeWidths shape := by
  cases i <;> cases h <;> cases row <;> rfl

theorem encode_length (i : Instr) : (encode i).length = i.length := by
  cases i <;> rfl

/-! ### Decoding operands -/

/-- Operands are read when and only when the format's bytes are there, and the rest is returned (30_encoding R72, R73). -/
theorem decodeOperands_eq_ok {shape : Shape} {bs rest : List Byte} {i : Instr} :
    decodeOperands shape bs = .ok (i, rest) ↔ ∃ ops, Makes shape ops i ∧ bs = ops ++ rest := by
  constructor
  · intro h
    unfold decodeOperands at h
    split at h <;> cases h
    case h_1 => exact ⟨[], .n i, rfl⟩
    case h_2 f p => exact ⟨_, .r f p, rfl⟩
    case h_4 f p q => exact ⟨_, .rr f p q, rfl⟩
    case h_7 f p hi lo => exact ⟨_, makes_rw_bytes f p hi lo, rfl⟩
    case h_11 f hi lo => exact ⟨_, makes_w_bytes f hi lo, rfl⟩
  · rintro ⟨ops, made, rfl⟩
    cases made <;> simp [decodeOperands]

/-- Operands are cut off when and only when their bytes end early, with the bytes of the complete fetches counted, the
opcode's among them (40_loop R104, R105). -/
theorem decodeOperands_eq_truncated {shape : Shape} {bs : List Byte} {k : Nat} :
    decodeOperands shape bs = .error (.truncated k) ↔ ∃ i missing, missing ≠ [] ∧ Makes shape (bs ++ missing) i ∧
      k = completeFetches (shapeWidths shape) (bs.length + 1) := by
  constructor
  · intro h
    unfold decodeOperands at h
    split at h <;> cases h
    case h_3 f => exact ⟨_, [0], by simp, .r f 0, rfl⟩
    case h_5 f p => exact ⟨_, [0], by simp, .rr f p 0, rfl⟩
    case h_6 f => exact ⟨_, [0, 0], by simp, .rr f 0 0, rfl⟩
    case h_8 f p hi => exact ⟨_, [0], by simp, makes_rw_bytes f p hi 0, rfl⟩
    case h_9 f p => exact ⟨_, [0, 0], by simp, makes_rw_bytes f p 0 0, rfl⟩
    case h_10 f => exact ⟨_, [0, 0, 0], by simp, makes_rw_bytes f 0 0 0, rfl⟩
    case h_12 f hi => exact ⟨_, [0], by simp, makes_w_bytes f hi 0, rfl⟩
    case h_13 f => exact ⟨_, [0, 0], by simp, makes_w_bytes f 0 0, rfl⟩
  · rintro ⟨i, missing, some_missing, made, rfl⟩
    generalize all : bs ++ missing = ops at made
    have short : bs.length < ops.length := by
      rw [← all, List.length_append]
      exact Nat.lt_add_of_pos_right (List.length_pos_iff.mpr some_missing)
    match made, bs with
    | .r _ _, [] | .rr _ _ _, [] | .rr _ _ _, [_] | .w _ _, [] | .w _ _, [_] => rfl
    | .rw _ _ _, [] | .rw _ _ _, [_] | .rw _ _ _, [_, _] => rfl

theorem decodeOperands_ne_undefined (shape : Shape) (bs : List Byte) (op : Byte) :
    decodeOperands shape bs ≠ .error (.undefinedOpcode op) := by
  unfold decodeOperands
  split <;> exact fun h => nomatch h

/-! ### Decoding -/

theorem decode_cons {op : Byte} {shape : Shape} (row : opcodeTable op = some shape) (bs : List Byte) :
    decode (op :: bs) = decodeOperands shape bs := by
  simp only [decode, row]

theorem decode_cons_undefined {op : Byte} (row : opcodeTable op = none) (bs : List Byte) :
    decode (op :: bs) = .error (.undefinedOpcode op) := by
  simp only [decode, row]

theorem encode_ne_nil (i : Instr) : encode i ≠ [] := by
  cases i <;> exact fun h => nomatch h

/-- Settles O2 (30_encoding sections 1 to 3): the table says the same of both directions, and the operands are read
exactly when the format's bytes are there. -/
theorem decodeEncodeAgree : Obligations.DecodeEncodeAgree := by
  intro bs rest i
  constructor
  · intro h
    cases bs with
    | nil => exact nomatch h
    | cons op bs =>
      cases row : opcodeTable op with
      | none => exact nomatch (decode_cons_undefined row bs).symm.trans h
      | some shape =>
        rw [decode_cons row] at h
        obtain ⟨ops, made, rfl⟩ := decodeOperands_eq_ok.mp h
        rw [encode_eq_cons.mpr ⟨shape, row, made⟩, List.cons_append]
  · rintro rfl
    obtain ⟨op, ops, enc⟩ := List.exists_cons_of_ne_nil (encode_ne_nil i)
    obtain ⟨shape, row, made⟩ := encode_eq_cons.mp enc
    rw [enc, List.cons_append, decode_cons row]
    exact decodeOperands_eq_ok.mpr ⟨ops, made, rfl⟩

theorem decode_eq_undefinedOpcode {bs : List Byte} {op : Byte} :
    decode bs = .error (.undefinedOpcode op) ↔ 20 ≤ op.toNat ∧ ∃ tail, bs = op :: tail := by
  constructor
  · intro h
    cases bs with
    | nil => exact nomatch h
    | cons opcode tail =>
      cases row : opcodeTable opcode with
      | none =>
        rw [decode_cons_undefined row] at h
        cases h
        exact ⟨opcodeTable_eq_none.mp row, tail, rfl⟩
      | some shape => exact absurd (decode_cons row tail ▸ h) (decodeOperands_ne_undefined shape tail op)
  · rintro ⟨large, tail, rfl⟩
    exact decode_cons_undefined (opcodeTable_eq_none.mpr large) tail

theorem decode_eq_truncated {bs : List Byte} {k : Nat} :
    decode bs = .error (.truncated k) ↔ ∃ (i : Instr) (missing : List Byte),
      missing ≠ [] ∧ encode i = bs ++ missing ∧ k = completeFetches (fetchWidths i) bs.length := by
  cases bs with
  | nil =>
    have none_fetched (i : Instr) : completeFetches (fetchWidths i) 0 = 0 :=
      Nat.le_zero.mp (completeFetches_le (fetchWidths i) 0)
    constructor
    · rintro ⟨⟩
      exact ⟨.hlt, encode .hlt, encode_ne_nil .hlt, rfl, rfl⟩
    · rintro ⟨i, missing, -, -, rfl⟩
      rw [List.length_nil, none_fetched]
      rfl
  | cons op bs =>
    constructor
    · intro h
      cases row : opcodeTable op with
      | none => exact nomatch (decode_cons_undefined row bs).symm.trans h
      | some shape =>
        rw [decode_cons row] at h
        obtain ⟨i, missing, some_missing, made, rfl⟩ := decodeOperands_eq_truncated.mp h
        have enc := encode_eq_cons.mpr ⟨shape, row, made⟩
        exact ⟨i, missing, some_missing, enc, by rw [fetchWidths_of_encode enc row, List.length_cons]⟩
    · rintro ⟨i, missing, some_missing, enc, rfl⟩
      rw [List.cons_append] at enc
      obtain ⟨shape, row, made⟩ := encode_eq_cons.mp enc
      rw [decode_cons row, fetchWidths_of_encode enc row, List.length_cons]
      exact decodeOperands_eq_truncated.mpr ⟨i, missing, some_missing, made, rfl⟩

/-- Settles O3 (30_encoding section 4, 40_loop section 2): the table has no row from 20 on, and a format cuts off exactly
the operand bytes that end early. -/
theorem decoderRefusesExactly : Obligations.DecoderRefusesExactly :=
  ⟨fun _ _ => decode_eq_undefinedOpcode, fun _ _ => decode_eq_truncated⟩

end Sys2Proof.Proofs
end

section
/-! PROOFS. The statements of 20_memory that are about the range check, reading, and memory as data. -/

namespace Sys2Proof.Proofs
open Sys2Proof.Machine

/-! ### Checked reads -/

theorem toNat_joinBytes (hi lo : Byte) : (joinBytes hi lo).toNat = hi.toNat * 256 + lo.toNat := by
  have high : (joinBytes hi lo).toNat / 256 = hi.toNat := by rw [← toNat_hiByte, hiByte_joinBytes]
  have low : (joinBytes hi lo).toNat % 256 = lo.toNat := by rw [← toNat_loByte, loByte_joinBytes]
  omega

theorem toNat_wordAt (s : State) (a : Nat) :
    (s.wordAt a).toNat = (s.byteAt a).toNat * 256 + (s.byteAt (a + 1)).toNat :=
  toNat_joinBytes _ _

/-- Settles O4 (20_memory R45): a read that passes the range check joins its two bytes. -/
theorem wordReadIsBigEndian : Obligations.WordReadIsBigEndian := by
  intro s a k
  constructor
  · intro inside
    exact ⟨s.wordAt a.toNat, readWord_eq_ok.mpr ⟨inside, rfl⟩, toNat_wordAt s a.toNat⟩
  · intro outside
    exact readWord_eq_error.mpr ⟨outside, rfl⟩

/-- Settles O6 (20_memory R43): the two outcomes of the range check. -/
theorem rangeCheckIsExact : Obligations.RangeCheckIsExact := by
  intro s a n k
  constructor
  · intro outside
    exact checkRange_eq_error.mpr ⟨by omega, rfl⟩
  · intro inside
    exact checkRange_eq_ok.mpr (by omega)

/-! ### Mixed widths -/

theorem wordAt_putWord_self (s : State) (a : Nat) (v : Word) : (s.putWord a v).wordAt a = v := by
  rw [State.wordAt, byteAt_putWord_hi, byteAt_putWord_lo, joinBytes_hiByte_loByte]

/-- Settles O7 (20_memory section 1): each of the words is joined from bytes that were stored or left alone. -/
theorem mixedWidthsSeeStoredBytes : Obligations.MixedWidthsSeeStoredBytes := by
  intro s a v
  refine ⟨byteAt_putWord_hi s a v, byteAt_putWord_lo s a v, wordAt_putWord_self s a v, ?_, fun pos => ?_⟩
  · rw [State.wordAt, byteAt_putWord_lo, byteAt_putWord_ne s v (by omega) (by omega)]
  · rw [State.wordAt, byteAt_putWord_ne s v (by omega) (by omega), Nat.sub_add_cancel pos, byteAt_putWord_hi]

/-! ### The canonical form is determined by what is read -/

/-- Canonical memory lists no address below its bound, so it reads 0 there. -/
theorem read_eq_zero_of_lt {m : Memory} {lo a : Nat} (wf : Memory.wfFrom lo m = true) (below : a < lo) :
    m.read a = 0 := by
  induction m generalizing lo with
  | nil => rfl
  | cons c m ih =>
    obtain ⟨⟨le, -⟩, tail⟩ := Memory.wfFrom_cons.mp wf
    simp only [Memory.read]
    rw [if_neg (by omega), ih tail (by omega)]

theorem read_cons_self (k : Nat) (b : Byte) (m : Memory) : Memory.read ((k, b) :: m) k = b := if_pos rfl

theorem read_cons_ne {k a : Nat} (b : Byte) (m : Memory) (ne : a ≠ k) : Memory.read ((k, b) :: m) a = m.read a :=
  if_neg ne

/-- The first listed address of one memory is listed first in every canonical memory that reads alike. -/
theorem head_le_of_read_eq {m : Memory} {k k' : Nat} {b b' : Byte} {rest : Memory} (nonzero : b ≠ 0)
    (tail : Memory.wfFrom (k' + 1) m = true) (same : Memory.read ((k, b) :: rest) k = Memory.read ((k', b') :: m) k) :
    k' ≤ k := by
  by_contra less
  rw [read_cons_self, read_cons_ne b' m (by omega), read_eq_zero_of_lt tail (by omega)] at same
  exact nonzero same

theorem eq_of_read_eq {m m' : Memory} {lo lo' : Nat} (wf : Memory.wfFrom lo m = true) (wf' : Memory.wfFrom lo' m' = true)
    (same : ∀ a, m.read a = m'.read a) : m = m' := by
  induction m generalizing m' lo lo' with
  | nil =>
    cases m' with
    | nil => rfl
    | cons c' m' =>
      obtain ⟨⟨-, nonzero⟩, -⟩ := Memory.wfFrom_cons.mp wf'
      exact absurd ((same c'.1).trans (read_cons_self c'.1 c'.2 m')).symm nonzero
  | cons c m ih =>
    obtain ⟨k, b⟩ := c
    obtain ⟨⟨-, nonzero⟩, tail⟩ := Memory.wfFrom_cons.mp wf
    cases m' with
    | nil => exact absurd ((read_cons_self k b m).symm.trans (same k)) nonzero
    | cons c' m' =>
      obtain ⟨k', b'⟩ := c'
      obtain ⟨⟨-, nonzero'⟩, tail'⟩ := Memory.wfFrom_cons.mp wf'
      obtain rfl : k = k' := Nat.le_antisymm (head_le_of_read_eq nonzero' tail (same k').symm)
        (head_le_of_read_eq nonzero tail' (same k))
      obtain rfl : b = b' := by simpa only [read_cons_self] using same k
      have tails (a : Nat) : Memory.read m a = Memory.read m' a := by
        by_cases h : a = k
        · subst h
          rw [read_eq_zero_of_lt tail (by omega), read_eq_zero_of_lt tail' (by omega)]
        · simpa only [read_cons_ne b _ h] using same a
      rw [ih tail tail' tails]

/-- Settles O8 (20_memory section 3): the entries of two canonical memories agree one after another. -/
theorem canonicalMemoriesReadAlikeAreEqual : Obligations.CanonicalMemoriesReadAlikeAreEqual :=
  fun _ _ wf wf' same => eq_of_read_eq wf wf' same

/-! ### Storing consecutive bytes -/

theorem read_writeBytes (m : Memory) (a b : Nat) (bs : List Byte) :
    (m.writeBytes a bs).read b = if a ≤ b ∧ b < a + bs.length then bs.getD (b - a) 0 else m.read b := by
  induction bs generalizing m a with
  | nil => exact (if_neg (by simp)).symm
  | cons v bs ih =>
    rw [Memory.writeBytes, ih, Memory.read_write, List.length_cons]
    rcases Nat.lt_trichotomy b a with less | rfl | more
    · rw [if_neg (by omega), if_neg (by omega), if_neg (by omega)]
    · rw [if_neg (by omega), if_pos rfl, if_pos (by omega), Nat.sub_self, List.getD_cons_zero]
    · obtain ⟨d, rfl⟩ := Nat.exists_eq_add_of_lt more
      rw [if_neg (show ¬a + d + 1 = a by omega), show a + d + 1 - a = d + 1 by omega, List.getD_cons_succ,
        show a + d + 1 - (a + 1) = d by omega]
      exact if_congr (by omega) rfl rfl

end Sys2Proof.Proofs
end

section
/-! PROOFS. The statements about construction (70_reset_and_hazards section 1). -/

namespace Sys2Proof.Proofs
open Sys2Proof.Machine

/-! ### The fields and accessors of a constructed machine -/

theorem byteAt_construct (n a : Nat) : (State.construct n).byteAt a = 0 := rfl

theorem flag_construct (n : Nat) (j : Fin 16) : (State.construct n).flag j = false := by
  simp [State.flag, State.construct]

theorem reg_construct (n : Nat) (i : Fin 16) :
    (State.construct n).reg i = if i = spIdx then BitVec.ofNat 16 n else 0 :=
  (reg_setReg { State.construct n with regs := Vector.replicate 16 0 } spIdx i (BitVec.ofNat 16 n)).trans
    (if_congr Iff.rfl rfl (by simp [State.reg]))

theorem runState_construct (n : Nat) : (State.construct n).runState = .halted :=
  runState_halted rfl (flag_construct n runSlot)

theorem hostSnapshot_not_running {s : State} (stopped : s.runState ≠ .running) :
    s.hostSnapshot = .ok ((List.range s.memSize).map s.byteAt) := by
  unfold State.hostSnapshot
  split
  · exact absurd ‹_› stopped
  · rfl
  · rfl

theorem hostConstruct_eq_ok {n : Nat} {s : State} :
    hostConstruct n = .ok s ↔ (1 ≤ n ∧ n ≤ 65535) ∧ s = State.construct n := by
  unfold hostConstruct Config.minMemSize Config.maxMemSize
  split_ifs with size
  · exact ⟨fun h => ⟨size, (Except.ok.inj h).symm⟩, fun h => h.2 ▸ rfl⟩
  · exact ⟨fun h => (nomatch h), fun h => absurd h.1 size⟩

/-! ### The statements -/

/-- Settles O9 (10_state R34, 20_memory R60): a constructed memory lists no address. -/
theorem constructedMemoryIsZero : Obligations.ConstructedMemoryIsZero := by
  intro n
  have stopped : (State.construct n).runState ≠ .running := by rw [runState_construct]; nofun
  refine ⟨fun a _ => byteAt_construct n a, (hostSnapshot_not_running stopped).trans ?_⟩
  rw [List.map_congr_left fun a _ => byteAt_construct n a, List.map_const', List.length_range]
  rfl

/-- Settles O10 (70_reset_and_hazards R240): the fields of `State.construct`, for the sizes that are let in. -/
theorem constructedMachineIsHalted : Obligations.ConstructedMachineIsHalted := by
  intro n
  constructor
  · intro size
    refine ⟨State.construct n, hostConstruct_eq_ok.mpr ⟨size, rfl⟩, rfl, ?_, ?_, flag_construct n, rfl, rfl,
      runState_construct n, step_halted rfl (flag_construct n runSlot)⟩
    · rw [reg_construct, if_pos rfl, BitVec.toNat_ofNat, Nat.mod_eq_of_lt (by omega)]
    · intro i other
      rw [reg_construct, if_neg other]
  · intro size
    exact if_neg size

theorem legal_construct {n : Nat} (size : 1 ≤ n ∧ n ≤ 65535) : (State.construct n).Legal := by
  refine ⟨⟨size.1, size.2, construct_mem_wf n, rfl⟩, ⟨fun j _ _ _ _ => flag_construct n j, ?_⟩, fun _ h => nomatch h⟩
  simp only [flag_construct, Bool.false_eq_true, not_false_eq_true, and_self]

/-- Settles O11 (70_reset_and_hazards R240): empty memory is canonical, no slot is set, and there is no fault. -/
theorem constructedMachineIsLegal : Obligations.ConstructedMachineIsLegal := by
  refine ⟨legal_construct (by decide), fun n s h => ?_⟩
  obtain ⟨size, rfl⟩ := hostConstruct_eq_ok.mp h
  exact legal_construct size

end Sys2Proof.Proofs
end

section
/-! PROOFS. The statements of 40_loop about fetching and stepping. -/

namespace Sys2Proof.Proofs
open Sys2Proof.Machine

/-! ### The two fetches -/

theorem frame_advance (s : State) (n : Nat) : Frame s (s.advance n) [] [] :=
  ⟨fun _ _ => reg_advance .., fun _ _ => flag_advance .., advance_memSize .., advance_fault ..⟩

theorem fetch8_inside {s : State} (inside : s.pc.toNat < s.memSize) :
    s.fetch8 = .ok (s.byteAt s.pc.toNat, s.advance 1) :=
  fetch8_eq_ok.mpr ⟨inside, rfl, rfl⟩

theorem fetch16_inside {s : State} (inside : s.pc.toNat + 2 ≤ s.memSize) :
    s.fetch16 = .ok (s.wordAt s.pc.toNat, s.advance 2) :=
  fetch16_eq_ok.mpr ⟨inside, rfl, rfl⟩

/-- Settles O14 (40_loop R104): the two outcomes of a byte fetch. -/
theorem byteFetchRule : Obligations.ByteFetchRule := by
  intro s size
  constructor
  · intro inside
    have pc := toNat_pc_advance (s := s) (n := 1) (by omega)
    exact ⟨s.advance 1, fetch8_inside inside, pc, by omega, frame_advance s 1, fun _ => byteAt_advance ..⟩
  · intro outside
    exact fetch8_eq_error.mpr ⟨outside, rfl⟩

/-- Settles O15 (40_loop R105): the two outcomes of a word fetch. -/
theorem wordFetchRule : Obligations.WordFetchRule := by
  intro s size
  constructor
  · intro inside
    exact ⟨s.wordAt s.pc.toNat, s.advance 2, fetch16_inside inside, toNat_wordAt s s.pc.toNat,
      toNat_pc_advance (by omega), frame_advance s 2, fun _ => byteAt_advance ..⟩
  · intro outside
    exact fetch16_eq_error.mpr ⟨outside, rfl⟩

/-! ### The bytes ahead of `pc` -/

/-- The bytes of memory from `pc` on, at most `n` and none at or beyond N. -/
def bytesAhead (s : State) (n : Nat) : List Byte :=
  (List.range (min n (s.memSize - s.pc.toNat))).map fun k => s.byteAt (s.pc.toNat + k)

theorem stream_eq_bytesAhead (s : State) : s.stream = bytesAhead s maxLength := rfl

theorem bytesAhead_outside {s : State} (outside : s.memSize ≤ s.pc.toNat) (n : Nat) : bytesAhead s n = [] := by
  rw [bytesAhead, Nat.sub_eq_zero_of_le outside, Nat.min_zero, List.range_zero, List.map_nil]

theorem bytesAhead_inside {s : State} (size : s.memSize ≤ 65535) (inside : s.pc.toNat < s.memSize) (n : Nat) :
    bytesAhead s (n + 1) = s.byteAt s.pc.toNat :: bytesAhead (s.advance 1) n := by
  have count : min (n + 1) (s.memSize - s.pc.toNat) = min n (s.memSize - (s.pc.toNat + 1)) + 1 := by omega
  rw [bytesAhead, bytesAhead, count, List.range_succ_eq_map, List.map_cons, List.map_map,
    toNat_pc_advance (by omega), advance_memSize]
  refine congrArg _ (List.map_congr_left fun k _ => ?_)
  rw [byteAt_advance, Function.comp_apply, Nat.succ_eq_add_one, Nat.add_assoc, Nat.add_comm 1]

theorem advance_advance (s : State) (m n : Nat) : (s.advance m).advance n = s.advance (m + n) := by
  simp [State.advance, State.setPc, BitVec.add_assoc, BitVec.ofNat_add]

/-! ### Fetching is decoding -/

/-- What fetching answers for what decoding the bytes at `pc` answers: the state at the answer, and for a refusal the
fault it is raised as (40_loop R104, R105; 60_exceptions R203). -/
def fetchOutcome (s : State) : Except DecodeError (Instr × List Byte) → Except FetchStop (Instr × State)
  | .ok (i, _) => .ok (i, s.advance i.length)
  | .error (.undefinedOpcode op) => .error (s.advance 1, ⟨.undefinedOpcode, op.toNat, .none⟩)
  | .error (.truncated k) => .error (s.advance k, outOfRange ((s.pc.toNat + k : Nat) : Int) .fetch)

/-- After `n` fetched bytes an operand byte is there and then behind `pc`; or none is, and the fetch raises. -/
theorem operand8_cases {s : State} {n : Nat} (size : s.memSize ≤ 65535)
    (pc : (s.advance n).pc.toNat = s.pc.toNat + n) :
    ((s.advance n).fetch8 = .ok (s.byteAt (s.pc.toNat + n), s.advance (n + 1)) ∧
      (s.advance (n + 1)).pc.toNat = s.pc.toNat + (n + 1) ∧
      ∀ m, bytesAhead (s.advance n) (m + 1) = s.byteAt (s.pc.toNat + n) :: bytesAhead (s.advance (n + 1)) m) ∨
    ((s.advance n).fetch8 = .error (s.advance n, outOfRange ((s.pc.toNat + n : Nat) : Int) .fetch) ∧
      ∀ m, bytesAhead (s.advance n) m = []) := by
  rw [← advance_advance, ← pc]
  by_cases inside : (s.advance n).pc.toNat < s.memSize
  · refine .inl ⟨fetch8_inside inside, ?_, bytesAhead_inside (s := s.advance n) size inside⟩
    rw [toNat_pc_advance (by omega), pc, Nat.add_assoc]
  · have outside : (s.advance n).memSize ≤ (s.advance n).pc.toNat := Nat.le_of_not_lt inside
    exact .inr ⟨fetch8_eq_error.mpr ⟨outside, rfl⟩, bytesAhead_outside outside⟩

/-- After `n` fetched bytes an operand word is there; or at most one byte is, and the fetch raises. -/
theorem operand16_cases {s : State} {n : Nat} (size : s.memSize ≤ 65535)
    (pc : (s.advance n).pc.toNat = s.pc.toNat + n) :
    ((s.advance n).fetch16 = .ok (s.wordAt (s.pc.toNat + n), s.advance (n + 2)) ∧
      ∀ m, ∃ rest, bytesAhead (s.advance n) (m + 2) =
        s.byteAt (s.pc.toNat + n) :: s.byteAt (s.pc.toNat + n + 1) :: rest) ∨
    ((s.advance n).fetch16 = .error (s.advance n, outOfRange ((s.pc.toNat + n : Nat) : Int) .fetch) ∧
      ∀ m, bytesAhead (s.advance n) m = [] ∨ ∃ hi, bytesAhead (s.advance n) m = [hi]) := by
  by_cases inside : (s.advance n).pc.toNat + 2 ≤ s.memSize
  · refine .inl ⟨?_, fun m => ?_⟩
    · rw [fetch16_inside inside, wordAt_advance, advance_advance, pc]
    · have pc' : (s.advance (n + 1)).pc.toNat = s.pc.toNat + (n + 1) := toNat_pc_advance (by omega)
      refine ⟨bytesAhead ((s.advance (n + 1)).advance 1) m, ?_⟩
      rw [bytesAhead_inside (s := s.advance n) size (Nat.lt_of_succ_lt inside), advance_advance,
        bytesAhead_inside (s := s.advance (n + 1)) size (by rw [pc', advance_memSize]; omega), pc, pc', byteAt_advance,
        byteAt_advance, Nat.add_assoc]
  · rw [← pc]
    refine .inr ⟨fetch16_eq_error.mpr ⟨Nat.lt_of_not_le inside, rfl⟩, fun m => ?_⟩
    have few : (bytesAhead (s.advance n) m).length ≤ 1 := by
      rw [bytesAhead, List.length_map, List.length_range, advance_memSize]
      omega
    match bytesAhead (s.advance n) m, few with
    | [], _ => exact .inl rfl
    | [hi], _ => exact .inr ⟨hi, rfl⟩

/-- The length of an instruction of the table is its opcode byte and its format's bytes (30_encoding R80). -/
theorem length_of_makes {op : Byte} {shape : Shape} {ops : List Byte} {i : Instr} (row : opcodeTable op = some shape)
    (made : Makes shape ops i) : i.length = ops.length + 1 := by
  rw [← encode_length, encode_eq_cons.mpr ⟨shape, row, made⟩, List.length_cons]

theorem fetchOperands_eq {s : State} {op : Byte} {shape : Shape} (size : s.memSize ≤ 65535)
    (inside : s.pc.toNat < s.memSize) (row : opcodeTable op = some shape) :
    fetchOperands shape (s.advance 1) = fetchOutcome s (decodeOperands shape (bytesAhead (s.advance 1) 3)) := by
  have pc1 : (s.advance 1).pc.toNat = s.pc.toNat + 1 := toNat_pc_advance (by omega)
  cases shape with
  | n i => rw [fetchOperands, decodeOperands, fetchOutcome, length_of_makes row (.n i), List.length_nil]
  | r f =>
    obtain ⟨fetched, -, ahead⟩ | ⟨fetched, ahead⟩ := operand8_cases size pc1
    · simp only [fetchOperands, fetched, fetch_ok_bind, fetch_pure, ahead, decodeOperands, fetchOutcome,
        length_of_makes row (.r f _), List.length_singleton]
    · simp only [fetchOperands, fetched, fetch_error_bind, ahead, decodeOperands, fetchOutcome]
  | rr f =>
    obtain ⟨fetched, pc2, ahead⟩ | ⟨fetched, ahead⟩ := operand8_cases size pc1
    · obtain ⟨fetched', -, ahead'⟩ | ⟨fetched', ahead'⟩ := operand8_cases (n := 2) size pc2
      · simp only [fetchOperands, fetched, fetched', fetch_ok_bind, fetch_pure, ahead, ahead', decodeOperands,
          fetchOutcome, length_of_makes row (.rr f _ _), List.length_cons, List.length_nil]
      · simp only [fetchOperands, fetched, fetched', fetch_ok_bind, fetch_error_bind, ahead, ahead', decodeOperands,
          fetchOutcome]
    · simp only [fetchOperands, fetched, fetch_error_bind, ahead, decodeOperands, fetchOutcome]
  | rw f =>
    obtain ⟨fetched, pc2, ahead⟩ | ⟨fetched, ahead⟩ := operand8_cases size pc1
    · obtain ⟨fetched', ahead'⟩ | ⟨fetched', ahead'⟩ := operand16_cases (n := 2) size pc2
      · obtain ⟨rest, ahead'⟩ := ahead' 0
        simp only [fetchOperands, fetched, fetched', fetch_ok_bind, fetch_pure, ahead, ahead', decodeOperands,
          fetchOutcome, length_of_makes row (makes_rw_bytes f _ _ _), List.length_cons, List.length_nil, State.wordAt]
      · obtain ahead' | ⟨hi, ahead'⟩ := ahead' 2 <;>
          simp only [fetchOperands, fetched, fetched', fetch_ok_bind, fetch_error_bind, ahead, ahead', decodeOperands,
            fetchOutcome]
    · simp only [fetchOperands, fetched, fetch_error_bind, ahead, decodeOperands, fetchOutcome]
  | w f =>
    obtain ⟨fetched, ahead⟩ | ⟨fetched, ahead⟩ := operand16_cases size pc1
    · obtain ⟨rest, ahead⟩ := ahead 1
      simp only [fetchOperands, fetched, fetch_ok_bind, fetch_pure, ahead, decodeOperands, fetchOutcome,
        length_of_makes row (makes_w_bytes f _ _), List.length_cons, List.length_nil, State.wordAt]
    · obtain ahead | ⟨hi, ahead⟩ := ahead 3 <;>
        simp only [fetchOperands, fetched, fetch_error_bind, ahead, decodeOperands, fetchOutcome]

theorem fetchInstr_eq_fetchOutcome {s : State} (size : s.memSize ≤ 65535) :
    s.fetchInstr = fetchOutcome s (decode s.stream) := by
  rw [stream_eq_bytesAhead]
  by_cases inside : s.pc.toNat < s.memSize
  · rw [State.fetchInstr, fetch8_inside inside, fetch_ok_bind, maxLength, bytesAhead_inside size inside]
    cases row : opcodeTable (s.byteAt s.pc.toNat) with
    | none => rw [decode_cons_undefined row]; simp only [row, fetchOutcome]
    | some shape => rw [decode_cons row]; simp only [row, fetchOperands_eq size inside row]
  · rw [fetchInstr_pc_outside (by omega), bytesAhead_outside (by omega), decode, fetchOutcome, advance_zero]
    rfl

/-- Settles O16 (40_loop sections 2 and 3): the three outcomes of decoding, each with its fetch. -/
theorem fetchAgreesWithDecoder : Obligations.FetchAgreesWithDecoder := by
  intro s size
  refine ⟨fun i rest h => ?_, fun op h => ?_, fun k h => ?_⟩
  · rw [fetchInstr_eq_fetchOutcome size, h, fetchOutcome]
  · rw [fetchInstr_eq_fetchOutcome size, h, fetchOutcome]
  · rw [fetchInstr_eq_fetchOutcome size, h, fetchOutcome, outOfRange, Nat.cast_add]

/-! ### Steps -/

theorem step_fetchInstr_ok {s u : State} {i : Instr} (run : s.Running) (h : s.fetchInstr = .ok (i, u)) :
    step s = exec i s := by
  rw [step_running run, h]

/-- Settles O17 (40_loop section 1): the instruction fetched is the one decoded. -/
theorem stepRunsDecodedInstruction : Obligations.StepRunsDecodedInstruction := by
  intro s i rest size run h
  exact step_fetchInstr_ok run ((fetchAgreesWithDecoder s size).1 i rest h)

theorem exec_next (i : Instr) (s : State) : ∃ t, exec i s = .next t :=
  exec_eq_execute i s ▸ execute_next s i.length (effectOf i)

/-- Settles O18 (10_state section 7): a Running machine fetches an instruction, whose meaning always answers, or takes
the fault of the fetch. -/
theorem stepEnabledExactlyWhenRunning : Obligations.StepEnabledExactlyWhenRunning := by
  intro s
  constructor
  · rintro ⟨t, h⟩
    exact (step_cases h).1
  · intro run
    cases h : s.fetchInstr with
    | ok r => exact step_fetchInstr_ok run h ▸ exec_next r.1 s
    | error e => exact ⟨_, step_fetchInstr_error run h⟩

/-- Settles O19 (40_loop section 2): the fault of the fetch that decoding says is cut off. -/
theorem cutOffInstructionFaults : Obligations.CutOffInstructionFaults := by
  intro s k size run h
  obtain ⟨-, -, cut⟩ := fetchAgreesWithDecoder s size
  exact step_fetchInstr_error run (cut k h)

/-- Settles O20 (60_exceptions R203): an opcode without a row ends the fetch right after it. -/
theorem undefinedOpcodeFaults : Obligations.UndefinedOpcodeFaults := by
  intro s size run inside large
  have decoded : decode s.stream = .error (.undefinedOpcode (s.byteAt s.pc.toNat)) :=
    decode_eq_undefinedOpcode.mpr ⟨large, _, bytesAhead_inside size inside 3⟩
  obtain ⟨-, undefined, -⟩ := fetchAgreesWithDecoder s size
  exact ⟨_, _, step_fetchInstr_error run (undefined _ decoded), rfl, rfl, rfl, rfl, toNat_pc_advance (by omega),
    step_faulted rfl⟩

end Sys2Proof.Proofs
end

section
/-! PROOFS. What an instruction can do, said once: the updates that a completed effect is made of, and the causes of the
fault of one that raises. -/

namespace Sys2Proof.Proofs
open Sys2Proof.Machine

/-! ### Completed effects -/

/-- What a completed effect of `i` makes of `t`: updates that the tables of claims allow `i`, one after another. -/
inductive Commit (i : Instr) (t : State) : State → Prop
  | start : Commit i t t
  | setReg {u : State} {d : Fin 16} {v : Word} (c : Commit i t u) (row : d ∈ writesRegs i) : Commit i t (u.setReg d v)
  | putWord {u : State} {a : Nat} {v : Word} (c : Commit i t u) (address : storeAddress i t = some (a : Int))
      (inside : a + 2 ≤ t.memSize) : Commit i t (u.putWord a v)
  | compare {u : State} {x y : Word} (c : Commit i t u) (row : writesFlags i = [ltSlot, gtSlot, eqSlot]) :
      Commit i t (u.compare x y)
  | halt {u : State} (c : Commit i t u) (row : writesFlags i = [runSlot]) : Commit i t (u.setFlag runSlot false)
  | setPc {u : State} {m : Word} (c : Commit i t u) (row : assignsPc i = true) : Commit i t (u.setPc m)

theorem idxOf_eq_some {b : Byte} {i : Fin 16} (h : b.toNat = i.val) : idxOf b = some i := by
  obtain rfl : b = idxByte i := BitVec.eq_of_toNat_eq (h.trans (toNat_idxByte i).symm)
  exact idxOf_idxByte i

theorem commit_setReg {i : Instr} {t : State} {p : Byte} {d : Fin 16} (v : Word) (hp : p.toNat = d.val)
    (row : writesRegs i = (idxOf p).toList) : Commit i t (t.setReg d v) :=
  .setReg .start (by simp [row, idxOf_eq_some hp])

theorem commit_store {i : Instr} {t : State} {p : Byte} {a : Fin 16} (v : Word) (hp : p.toNat = a.val)
    (row : storeAddress i t = (idxOf p).map t.eaReg) (inside : t.eaReg a + 2 ≤ t.memSize) :
    Commit i t (t.putWord (t.reg a).toNat v) := by
  have word : ((t.reg a).toNat : Int) + 2 ≤ t.memSize := inside
  refine .putWord .start ?_ (by omega)
  rw [row, idxOf_eq_some hp]
  rfl

theorem commit_of_effectOf_ok {i : Instr} {t u : State} (h : effectOf i t = .ok u) : Commit i t u := by
  cases i with
  | push p =>
    obtain ⟨r, hp, low, high, rfl⟩ := effPush_eq_ok.mp h
    have address : ((t.sp - 2).toNat : Int) = t.sp - 2 := Int.toNat_of_nonneg (by omega)
    exact .putWord (.setReg .start (List.mem_singleton_self spIdx)) (congrArg some address.symm) (by omega)
  | movMrR p q =>
    obtain ⟨a, r, hp, -, inside, rfl⟩ := effMovMrR_eq_ok.mp h
    exact commit_store _ hp rfl inside
  | movMrM p m =>
    obtain ⟨a, hp, -, inside, rfl⟩ := effMovMrM_eq_ok.mp h
    exact commit_store _ hp rfl inside
  | movMrC p c =>
    obtain ⟨a, hp, inside, rfl⟩ := effMovMrC_eq_ok.mp h
    exact commit_store _ hp rfl inside
  | movRR p q =>
    obtain ⟨d, r, hp, -, rfl⟩ := effMovRR_eq_ok.mp h
    exact commit_setReg _ hp rfl
  | movRM p m =>
    obtain ⟨d, hp, -, rfl⟩ := effMovRM_eq_ok.mp h
    exact commit_setReg _ hp rfl
  | movRC p c =>
    obtain ⟨d, hp, rfl⟩ := effMovRC_eq_ok.mp h
    exact commit_setReg _ hp rfl
  | movRMr p q =>
    obtain ⟨d, a, hp, -, -, rfl⟩ := effMovRMr_eq_ok.mp h
    exact commit_setReg _ hp rfl
  | subRR p q =>
    obtain ⟨d, r, hp, -, rfl⟩ := effSubRR_eq_ok.mp h
    exact commit_setReg _ hp rfl
  | subRC p c =>
    obtain ⟨d, hp, rfl⟩ := effSubRC_eq_ok.mp h
    exact commit_setReg _ hp rfl
  | addRR p q =>
    obtain ⟨d, r, hp, -, rfl⟩ := effAddRR_eq_ok.mp h
    exact commit_setReg _ hp rfl
  | addRC p c =>
    obtain ⟨d, hp, rfl⟩ := effAddRC_eq_ok.mp h
    exact commit_setReg _ hp rfl
  | cmp p q =>
    obtain ⟨a, b, -, -, rfl⟩ := effCmp_eq_ok.mp h
    exact .compare .start rfl
  | flg p q =>
    obtain ⟨d, j, hp, -, rfl⟩ := effFlg_eq_ok.mp h
    exact commit_setReg _ hp rfl
  | jnz p m =>
    obtain ⟨r, -, rfl⟩ := effJnz_eq_ok.mp h
    split_ifs
    · exact .setPc .start rfl
    · exact .start
  | jmp m =>
    obtain rfl := effJmp_eq_ok.mp h
    exact .setPc .start rfl
  | call p =>
    obtain ⟨a, -, rfl⟩ := effCall_eq_ok.mp h
    exact .setPc (.setReg .start (List.mem_singleton_self lrIdx)) rfl
  | pop p =>
    obtain ⟨r, hp, -, rfl⟩ := effPop_eq_ok.mp h
    exact .setReg (.setReg .start (by simp [writesRegs, idxOf_eq_some hp])) (by simp [writesRegs])
  | ret =>
    obtain rfl := effRet_eq_ok.mp h
    exact .setPc .start rfl
  | hlt =>
    obtain rfl := effHlt_eq_ok.mp h
    exact .halt .start rfl

/-! ### What a completed effect leaves unchanged -/

section
variable {i : Instr} {t u : State}

theorem Commit.memSize_eq (c : Commit i t u) : u.memSize = t.memSize := by
  induction c with
  | start => rfl
  | setReg _ _ ih | putWord _ _ _ ih | compare _ _ ih | halt _ _ ih | setPc _ _ ih => exact ih

theorem Commit.fault_eq (c : Commit i t u) : u.fault = t.fault := by
  induction c with
  | start => rfl
  | setReg _ _ ih | putWord _ _ _ ih | compare _ _ ih | halt _ _ ih | setPc _ _ ih => exact ih

theorem Commit.pc_eq (c : Commit i t u) (stays : assignsPc i = false) : u.pc = t.pc := by
  induction c with
  | start => rfl
  | setReg _ _ ih | putWord _ _ _ ih | compare _ _ ih | halt _ _ ih => exact ih
  | setPc _ row _ => exact absurd (row.symm.trans stays) nofun

theorem Commit.sameRegs (c : Commit i t u) : SameRegsExcept t u (writesRegs i) := by
  intro j other
  induction c with
  | start => rfl
  | setReg _ row ih => rw [reg_setReg_ne _ _ _ _ (by rintro rfl; exact other row), ih]
  | putWord _ _ _ ih | compare _ _ ih | halt _ _ ih | setPc _ _ ih => exact ih

theorem Commit.sameFlags (c : Commit i t u) : SameFlagsExcept t u (writesFlags i) := by
  intro j other
  induction c with
  | start => rfl
  | compare _ row ih =>
    simp only [row, List.mem_cons, List.not_mem_nil, or_false, not_or] at other
    obtain ⟨lt, gt, eq⟩ := other
    rw [flag_compare, if_neg eq, if_neg gt, if_neg lt, ih]
  | halt _ row ih => rw [flag_setFlag_ne _ _ _ _ fun e => other (by simp [row, e]), ih]
  | setReg _ _ ih | putWord _ _ _ ih | setPc _ _ ih => exact ih

theorem Commit.sameBytes (c : Commit i t u) : SameBytesOutsideStore i t u := by
  constructor
  · intro no_store b
    induction c with
    | start => rfl
    | putWord _ address _ _ => exact absurd (address.symm.trans no_store) nofun
    | setReg _ _ ih | compare _ _ ih | halt _ _ ih | setPc _ _ ih => exact ih
  · intro a store b outside
    induction c with
    | start => rfl
    | putWord _ address _ ih =>
      obtain rfl := Option.some.inj (address.symm.trans store)
      rw [byteAt_putWord_ne _ _ (by omega) (by omega), ih]
    | setReg _ _ ih | compare _ _ ih | halt _ _ ih | setPc _ _ ih => exact ih

end

/-! ### Raising effects -/

/-- Why an effect of `i` raises in `t` (60_exceptions R202 to R207), and what. -/
inductive Cause (i : Instr) (t : State) : Raise → Prop
  | index {b : Byte} {k : FaultKind} (operand : (b, k) ∈ indexOperands i) (bad : 15 < b.toNat) :
      Cause i t ⟨k, b.toNat, .none⟩
  | access {a : Int} {k : Access} (row : mayRaise i .outOfRangeMemoryAccess k = true) (word : 0 ≤ a ∧ a ≤ 65535)
      (outside : t.memSize < a + 2) : Cause i t (outOfRange a k)
  | overflow {p : Byte} (push : i = .push p) (low : t.sp < 2) : Cause i t ⟨.stackOverflow, t.sp, .none⟩
  | underflow {p : Byte} (pop : i = .pop p) (high : t.memSize < t.sp + 2) : Cause i t ⟨.stackUnderflow, t.sp, .none⟩

/-- Whatever a computation raises has a cause in `C`. -/
def RaisesOnly {α : Type} (C : Raise → Prop) (x : Except Raise α) : Prop := ∀ r, x = .error r → C r

section
variable {α β : Type} {C : Raise → Prop}

theorem raisesOnly_ok (a : α) : RaisesOnly C (.ok a) := nofun

theorem raisesOnly_bind {x : Except Raise α} {f : α → Except Raise β} (hx : RaisesOnly C x)
    (hf : ∀ a, x = .ok a → RaisesOnly C (f a)) : RaisesOnly C (x >>= f) := by
  intro r h
  obtain h | ⟨a, answered, h⟩ := bind_eq_error.mp h
  · exact hx r h
  · exact hf a answered r h

end

theorem zext_word (v : Word) : 0 ≤ zext v ∧ zext v ≤ 65535 := ⟨zext_nonneg v, Int.le_of_lt_add_one (zext_lt v)⟩

section
variable {i : Instr} {t : State}

theorem regIdx_raises {p : Byte} (operand : (p, .invalidRegisterIndex) ∈ indexOperands i) :
    RaisesOnly (Cause i t) (regIdx p) := by
  intro r h
  obtain ⟨bad, rfl⟩ := regIdx_eq_error.mp h
  exact .index operand bad

theorem flagIdx_raises {p : Byte} (operand : (p, .invalidFlagIndex) ∈ indexOperands i) :
    RaisesOnly (Cause i t) (flagIdx p) := by
  intro r h
  obtain ⟨bad, rfl⟩ := flagIdx_eq_error.mp h
  exact .index operand bad

theorem checkRange_raises {u : State} {a : Int} {k : Access} (size : u.memSize = t.memSize)
    (row : mayRaise i .outOfRangeMemoryAccess k = true) (word : 0 ≤ a ∧ a ≤ 65535) :
    RaisesOnly (Cause i t) (u.checkRange a 2 k) := by
  intro r h
  obtain ⟨outside, rfl⟩ := checkRange_eq_error.mp h
  exact .access row word (by omega)

theorem readWord_raises {a : Int} (row : mayRaise i .outOfRangeMemoryAccess .read = true) (word : 0 ≤ a ∧ a ≤ 65535) :
    RaisesOnly (Cause i t) (t.readWord a .read) :=
  raisesOnly_bind (checkRange_raises rfl row word) fun _ _ => raisesOnly_ok _

theorem writeWord_raises {u : State} {a : Int} (v : Word) (size : u.memSize = t.memSize)
    (row : mayRaise i .outOfRangeMemoryAccess .write = true) (word : 0 ≤ a ∧ a ≤ 65535) :
    RaisesOnly (Cause i t) (u.writeWord a v) :=
  raisesOnly_bind (checkRange_raises size row word) fun _ _ => raisesOnly_ok _

/-- An instruction with one register operand raises for it, or in what follows. -/
theorem raises_after_reg {p : Byte} {f : Fin 16 → Except Raise State}
    (operands : indexOperands i = [(p, .invalidRegisterIndex)])
    (rest : ∀ d, RaisesOnly (Cause i t) (f d)) : RaisesOnly (Cause i t) (regIdx p >>= f) :=
  raisesOnly_bind (regIdx_raises (by simp [operands])) fun d _ => rest d

/-- An instruction with two register operands raises for one of them, or in what follows. -/
theorem raises_after_regs {p q : Byte} {f : Fin 16 → Fin 16 → Except Raise State}
    (operands : indexOperands i = [(p, .invalidRegisterIndex), (q, .invalidRegisterIndex)])
    (rest : ∀ d r, RaisesOnly (Cause i t) (f d r)) : RaisesOnly (Cause i t) (regIdx p >>= fun d => regIdx q >>= f d) :=
  raisesOnly_bind (regIdx_raises (by simp [operands])) fun d _ =>
    raisesOnly_bind (regIdx_raises (by simp [operands])) fun r _ => rest d r

end

/-- Every effect raises only for the causes above. `PUSH` writes below a pointer that its guard has found to be 2 or more,
and the read of `POP` cannot fail after its guard. -/
theorem cause_of_effectOf_error {i : Instr} {t : State} : RaisesOnly (Cause i t) (effectOf i t) := by
  cases i with
  | push p =>
    refine raises_after_reg rfl fun r => raisesOnly_bind ?guard fun _ guarded => ?rest
    case guard =>
      intro e h
      obtain ⟨low, rfl⟩ := pushGuard_eq_error.mp h
      exact .overflow rfl (by omega)
    case rest =>
      have word : 0 ≤ t.sp ∧ t.sp ≤ 65535 := zext_word _
      have low := pushGuard_eq_ok.mp guarded
      have address : 0 ≤ t.sp - 2 ∧ t.sp - 2 ≤ 65535 := by omega
      exact raisesOnly_bind (checkRange_raises rfl rfl address) fun _ _ => writeWord_raises _ rfl rfl address
  | pop p =>
    refine raises_after_reg rfl fun r => raisesOnly_bind ?guard fun _ guarded => ?rest
    case guard =>
      intro e h
      obtain ⟨high, rfl⟩ := popGuard_eq_error.mp h
      exact .underflow rfl (by omega)
    case rest =>
      have inside := popGuard_eq_ok.mp guarded
      have read : t.readWord t.sp .read = .ok (t.wordAt t.sp.toNat) := readWord_eq_ok.mpr ⟨⟨zext_nonneg _, inside⟩, rfl⟩
      rw [read, ok_bind]
      exact raisesOnly_ok _
  | movMrR p q => exact raises_after_regs rfl fun a r => writeWord_raises _ rfl rfl (zext_word _)
  | movMrM p m =>
    exact raises_after_reg rfl fun a => raisesOnly_bind (checkRange_raises rfl rfl (zext_word _)) fun _ _ =>
      raisesOnly_bind (checkRange_raises rfl rfl (zext_word _)) fun _ _ =>
        raisesOnly_bind (readWord_raises rfl (zext_word _)) fun _ _ => writeWord_raises _ rfl rfl (zext_word _)
  | movMrC p c => exact raises_after_reg rfl fun a => writeWord_raises _ rfl rfl (zext_word _)
  | movRM p m =>
    exact raises_after_reg rfl fun d => raisesOnly_bind (readWord_raises rfl (zext_word _)) fun _ _ => raisesOnly_ok _
  | movRMr p q =>
    exact raises_after_regs rfl fun d a => raisesOnly_bind (readWord_raises rfl (zext_word _)) fun _ _ => raisesOnly_ok _
  | movRR p q => exact raises_after_regs rfl fun d r => raisesOnly_ok _
  | subRR p q => exact raises_after_regs rfl fun d r => raisesOnly_ok _
  | addRR p q => exact raises_after_regs rfl fun d r => raisesOnly_ok _
  | cmp p q => exact raises_after_regs rfl fun a b => raisesOnly_ok _
  | movRC p c => exact raises_after_reg rfl fun d => raisesOnly_ok _
  | subRC p c => exact raises_after_reg rfl fun d => raisesOnly_ok _
  | addRC p c => exact raises_after_reg rfl fun d => raisesOnly_ok _
  | jnz p m => exact raises_after_reg rfl fun r => raisesOnly_ok _
  | call p => exact raises_after_reg rfl fun a => raisesOnly_ok _
  | flg p q =>
    exact raisesOnly_bind (regIdx_raises (by simp [indexOperands])) fun d _ =>
      raisesOnly_bind (flagIdx_raises (by simp [indexOperands])) fun j _ => raisesOnly_ok _
  | jmp m => exact raisesOnly_ok _
  | ret => exact raisesOnly_ok _
  | hlt => exact raisesOnly_ok _

/-! ### Meanings -/

theorem exec_of_effectOf_ok {i : Instr} {s t : State} (h : effectOf i (s.advance i.length) = .ok t) :
    exec i s = .next t :=
  (exec_eq_execute i s).trans (execute_ok h)

theorem exec_of_effectOf_error {i : Instr} {s : State} {r : Raise} (h : effectOf i (s.advance i.length) = .error r) :
    exec i s = .next (s.faultedAfter i.length r.kind r.value r.access) :=
  (exec_eq_execute i s).trans (execute_error h)

/-- An instruction completes with allowed updates, or leaves the faulted state of what it raised. -/
theorem commit_or_cause {i : Instr} {s t : State} (h : exec i s = .next t) :
    Commit i (s.advance i.length) t ∨ ∃ r, Cause i (s.advance i.length) r ∧
      t = s.faultedAfter i.length r.kind r.value r.access := by
  obtain completed | ⟨r, raised, rfl⟩ := exec_cases h
  · exact .inl (commit_of_effectOf_ok completed)
  · exact .inr ⟨r, cause_of_effectOf_error r raised, rfl⟩

/-- On a machine without a fault, an instruction that ends with a record raised it. -/
theorem cause_of_fault {i : Instr} {s t : State} {f : FaultRecord} (noFault : s.fault = none) (h : exec i s = .next t)
    (faulted : t.fault = some f) : Cause i (s.advance i.length) ⟨f.kind, f.value, f.access⟩ ∧
      t = s.faultedAfter i.length f.kind f.value f.access := by
  obtain c | ⟨r, cause, rfl⟩ := commit_or_cause h
  · exact nomatch (c.fault_eq.trans noFault).symm.trans faulted
  · cases faulted
    exact ⟨cause, rfl⟩

end Sys2Proof.Proofs
end

section
/-! PROOFS. The frames over all instructions (10_state sections 1 to 3, 20_memory section 2). -/

namespace Sys2Proof.Proofs
open Sys2Proof.Machine

/-! ### The frame of every instruction -/

theorem sameOrRaised_faultedAfter (s : State) (n : Nat) (k : FaultKind) (v : Int) (a : Access) :
    SameOrRaised s (s.faultedAfter n k v a) :=
  ⟨rfl, .inr ⟨_, rfl, rfl, rfl⟩⟩

theorem storeAddress_advance (i : Instr) (s : State) (n : Nat) : storeAddress i (s.advance n) = storeAddress i s := by
  cases i <;> rfl

/-- Registers, flags and bytes outside the tables of claims are as before, in a faulting instruction too. -/
theorem exec_frame {i : Instr} {s t : State} (h : exec i s = .next t) :
    SameRegsExcept s t (writesRegs i) ∧ SameFlagsExcept s t (writesFlags i) ∧ SameBytesOutsideStore i s t ∧
      SameOrRaised s t := by
  obtain c | ⟨r, -, rfl⟩ := commit_or_cause h
  · obtain ⟨nowhere, outside⟩ := c.sameBytes
    rw [storeAddress_advance] at nowhere outside
    exact ⟨c.sameRegs, c.sameFlags, ⟨nowhere, outside⟩, c.memSize_eq, .inl c.fault_eq⟩
  · exact ⟨fun _ _ => rfl, fun _ _ => rfl, ⟨fun _ _ => rfl, fun _ _ _ _ => rfl⟩, sameOrRaised_faultedAfter ..⟩

/-- Settles O41: a form that stores nothing leaves every byte. -/
theorem frameOfRegisterForms : Obligations.FrameOfRegisterForms := by
  intro i s t no_store _ h
  obtain ⟨regs, flags, ⟨bytes, -⟩, record⟩ := exec_frame h
  exact ⟨regs, flags, bytes (no_store s), record⟩

theorem writesFlags_of_assignsPc {i : Instr} (transfer : assignsPc i = true) : writesFlags i = [] := by
  cases i with
  | jnz | jmp | call | ret => rfl
  | _ => exact nomatch transfer

theorem storeAddress_of_assignsPc {i : Instr} (transfer : assignsPc i = true) (s : State) :
    storeAddress i s = none := by
  cases i with
  | jnz | jmp | call | ret => rfl
  | _ => exact nomatch transfer

/-- Settles O42: a transfer writes no flag and stores nothing. -/
theorem frameOfTransfers : Obligations.FrameOfTransfers := by
  intro i s t transfer h
  obtain ⟨regs, flags, ⟨bytes, -⟩, record⟩ := exec_frame h
  exact ⟨regs, writesFlags_of_assignsPc transfer ▸ flags, bytes (storeAddress_of_assignsPc transfer s), record⟩

/-- Settles O43: the four storing forms are rows of the tables. -/
theorem frameOfStoringForms : Obligations.FrameOfStoringForms :=
  ⟨fun _ _ _ h => exec_frame h, fun _ _ _ _ h => exec_frame h, fun _ _ _ _ h => exec_frame h,
    fun _ _ _ _ h => exec_frame h⟩

/-- Settles O45: a completed instruction that is no transfer leaves the advanced `pc`, and so does a fault. -/
theorem onlyTransfersAssignPc : Obligations.OnlyTransfersAssignPc := by
  intro i s t noFault h
  obtain c | ⟨r, -, rfl⟩ := commit_or_cause h
  · cases row : assignsPc i with
    | true => exact .inr ⟨rfl, c.fault_eq.trans noFault⟩
    | false => exact .inl (c.pc_eq row)
  · exact .inl rfl

end Sys2Proof.Proofs
end

section
/-! PROOFS. The statements of 60_exceptions. -/

namespace Sys2Proof.Proofs
open Sys2Proof.Machine

/-! ### What an instruction raises -/

theorem mayRaise_of_mem_indexOperands {i : Instr} {b : Byte} {k : FaultKind} (operand : (b, k) ∈ indexOperands i) :
    mayRaise i k .none = true := by
  cases i <;> simp only [indexOperands, List.mem_cons, List.not_mem_nil, or_false, Prod.mk.injEq] at operand
  case flg => obtain ⟨-, rfl⟩ | ⟨-, rfl⟩ := operand <;> rfl
  case movMrR | movRR | movRMr | subRR | addRR | cmp => obtain ⟨-, rfl⟩ | ⟨-, rfl⟩ := operand <;> rfl
  all_goals
    obtain ⟨-, rfl⟩ := operand
    rfl

theorem Cause.mayRaise_eq_true {i : Instr} {t : State} {r : Raise} (c : Cause i t r) :
    mayRaise i r.kind r.access = true := by
  cases c with
  | index operand _ => exact mayRaise_of_mem_indexOperands operand
  | access row _ _ => exact row
  | overflow push _ => exact push ▸ rfl
  | underflow pop _ => exact pop ▸ rfl

/-- Settles O51 (60_exceptions R208, R214): every cause is in the matrix, and the faulted state follows from it. -/
theorem faultMatrix : Obligations.FaultMatrix := by
  intro i s t f noFault h faulted
  obtain ⟨cause, rfl⟩ := cause_of_fault noFault h faulted
  exact ⟨cause.mayRaise_eq_true, rfl⟩

/-! ### Bad indices -/

theorem wf_eq_all (i : Instr) : i.wf = (indexOperands i).all fun c => decide (c.1.toNat ≤ 15) := by
  cases i <;> simp [Instr.wf, indexOperands, regByteOk, flagByteOk]

theorem wf_iff_firstBadIndex (i : Instr) : i.wf = true ↔ firstBadIndex i = none := by
  simp [wf_eq_all, firstBadIndex, List.find?_eq_none]

/-- A computation raises for the first bad byte of `ops`, when there is one, whatever else it would check. -/
def RaisesFirst {α : Type} (ops : List (Byte × FaultKind)) (x : Except Raise α) : Prop :=
  ∀ b k, ops.find? (fun c => decide (15 < c.1.toNat)) = some (b, k) → x = .error ⟨k, b.toNat, .none⟩

section
variable {α β : Type} {p : Byte} {k : FaultKind} {ops : List (Byte × FaultKind)}

theorem raisesFirst_nil (x : Except Raise α) : RaisesFirst [] x := nofun

theorem raisesFirst_cons {validate : Except Raise α} {f : α → Except Raise β}
    (good : ∀ e, validate = .error e → 15 < p.toNat)
    (bad : 15 < p.toNat → validate = .error ⟨k, p.toNat, .none⟩) (rest : ∀ a, RaisesFirst ops (f a)) :
    RaisesFirst ((p, k) :: ops) (validate >>= f) := by
  intro b kind h
  rw [List.find?_cons] at h
  split at h
  · next isBad =>
    cases h
    rw [bad (of_decide_eq_true isBad), error_bind]
  · next isGood =>
    cases answer : validate with
    | ok a => exact rest a b kind h
    | error e => exact absurd (good e answer) (of_decide_eq_false isGood)

theorem raisesFirst_reg {f : Fin 16 → Except Raise β} (rest : ∀ d, RaisesFirst ops (f d)) :
    RaisesFirst ((p, .invalidRegisterIndex) :: ops) (regIdx p >>= f) :=
  raisesFirst_cons (fun _ h => (regIdx_eq_error.mp h).1) regIdx_bad rest

theorem raisesFirst_flag {f : Fin 16 → Except Raise β} (rest : ∀ d, RaisesFirst ops (f d)) :
    RaisesFirst ((p, .invalidFlagIndex) :: ops) (flagIdx p >>= f) :=
  raisesFirst_cons (fun _ h => (flagIdx_eq_error.mp h).1) flagIdx_bad rest

end

theorem effectOf_raisesFirst (i : Instr) (t : State) : RaisesFirst (indexOperands i) (effectOf i t) := by
  cases i with
  | push | movMrM | movMrC | movRM | movRC | subRC | addRC | jnz | call | pop =>
    exact raisesFirst_reg fun _ => raisesFirst_nil _
  | movMrR | movRR | movRMr | subRR | addRR | cmp =>
    exact raisesFirst_reg fun _ => raisesFirst_reg fun _ => raisesFirst_nil _
  | flg => exact raisesFirst_reg fun _ => raisesFirst_flag fun _ => raisesFirst_nil _
  | jmp | ret | hlt => exact raisesFirst_nil _

/-- Settles O46 (60_exceptions R206, R207, R210): the validations come first, in operand order. -/
theorem badIndexFaults : Obligations.BadIndexFaults :=
  ⟨wf_iff_firstBadIndex, fun i s b k h => exec_of_effectOf_error (effectOf_raisesFirst i (s.advance i.length) b k h)⟩

/-! ### Stack faults -/

theorem regIdx_idxByte_bind {α : Type} (r : Fin 16) (f : Fin 16 → Except Raise α) :
    (regIdx (idxByte r) >>= f) = f r := by
  rw [regIdx_idxByte, ok_bind]

theorem effPush_overflow {t : State} (r : Fin 16) (low : t.sp < 2) :
    effPush (idxByte r) t = .error ⟨.stackOverflow, t.sp, .none⟩ := by
  rw [effPush, regIdx_idxByte_bind, pushGuard_eq_error.mpr ⟨by omega, rfl⟩, error_bind]

theorem effPush_outside {t : State} (r : Fin 16) (low : 2 ≤ t.sp) (high : t.memSize < t.sp) :
    effPush (idxByte r) t = .error (outOfRange (t.sp - 2) .write) := by
  rw [effPush, regIdx_idxByte_bind, (pushGuard_eq_ok (u := ())).mpr low, ok_bind,
    checkRange_eq_error.mpr ⟨by omega, rfl⟩, error_bind]

theorem effPop_underflow {t : State} (r : Fin 16) (high : t.memSize < t.sp + 2) :
    effPop (idxByte r) t = .error ⟨.stackUnderflow, t.sp, .none⟩ := by
  rw [effPop, regIdx_idxByte_bind, popGuard_eq_error.mpr ⟨by omega, rfl⟩, error_bind]

theorem kind_of_mem_indexOperands {i : Instr} {b : Byte} {k : FaultKind} (operand : (b, k) ∈ indexOperands i) :
    k = .invalidRegisterIndex ∨ k = .invalidFlagIndex := by
  have all : ∀ c ∈ indexOperands i, c.2 = .invalidRegisterIndex ∨ c.2 = .invalidFlagIndex := by
    cases i <;> simp [indexOperands]
  exact all _ operand

theorem Cause.of_stackOverflow {i : Instr} {t : State} {r : Raise} (c : Cause i t r) (kind : r.kind = .stackOverflow) :
    (∃ p, i = .push p) ∧ t.sp < 2 := by
  cases c with
  | overflow push low => exact ⟨⟨_, push⟩, low⟩
  | index operand _ => obtain rfl | rfl := kind_of_mem_indexOperands operand <;> exact nomatch kind
  | access | underflow => exact nomatch kind

theorem Cause.of_stackUnderflow {i : Instr} {t : State} {r : Raise} (c : Cause i t r) (kind : r.kind = .stackUnderflow) :
    (∃ p, i = .pop p) ∧ t.memSize < t.sp + 2 := by
  cases c with
  | underflow pop high => exact ⟨⟨_, pop⟩, high⟩
  | index operand _ => obtain rfl | rfl := kind_of_mem_indexOperands operand <;> exact nomatch kind
  | access | overflow => exact nomatch kind

theorem sp_advance (s : State) (n : Nat) : (s.advance n).sp = ((s.reg spIdx).toNat : Int) := rfl

/-- Settles O47 (60_exceptions R204): the guard of `PUSH`, and the only cause of this kind. -/
theorem stackOverflowRule : Obligations.StackOverflowRule := by
  constructor
  · intro s r low
    exact exec_of_effectOf_error (i := .push _) (effPush_overflow r (by rw [sp_advance]; omega))
  · intro i s t f noFault h faulted kind
    obtain ⟨cause, -⟩ := cause_of_fault noFault h faulted
    obtain ⟨push, low⟩ := cause.of_stackOverflow kind
    rw [sp_advance] at low
    exact ⟨push, by omega⟩

/-- Settles O48 (60_exceptions R205): the guard of `POP`, and the only cause of this kind. -/
theorem stackUnderflowRule : Obligations.StackUnderflowRule := by
  constructor
  · intro s r high
    exact exec_of_effectOf_error (i := .pop _) (effPop_underflow r (by rw [sp_advance, advance_memSize]; omega))
  · intro i s t f noFault h faulted kind
    obtain ⟨cause, -⟩ := cause_of_fault noFault h faulted
    obtain ⟨pop, high⟩ := cause.of_stackUnderflow kind
    rw [sp_advance, advance_memSize] at high
    exact ⟨pop, by omega⟩

/-! ### Stores and loads outside memory -/

section
variable {t : State} {a d r : Fin 16} {m c : Word}

theorem outside_of_lt {v : Word} (outside : t.memSize < v.toNat + 2) : ¬(0 ≤ zext v ∧ zext v + 2 ≤ t.memSize) := by
  unfold zext
  omega

theorem checkRange_outside {v : Word} (k : Access) (outside : t.memSize < v.toNat + 2) :
    t.checkRange (zext v) 2 k = .error (outOfRange v.toNat k) :=
  checkRange_eq_error.mpr ⟨outside_of_lt outside, rfl⟩

theorem checkRange_inside {v : Word} (k : Access) (inside : v.toNat + 2 ≤ t.memSize) :
    t.checkRange (zext v) 2 k = .ok () :=
  checkRange_eq_ok.mpr ⟨zext_nonneg v, by unfold zext; omega⟩

theorem store_outside (v : Word) (outside : t.memSize < (t.reg a).toNat + 2) :
    t.store (t.eaReg a) v = .error (outOfRange (t.reg a).toNat .write) :=
  writeWord_eq_error.mpr ⟨outside_of_lt outside, rfl⟩

theorem load_outside {v : Word} (outside : t.memSize < v.toNat + 2) :
    t.load (zext v) = .error (outOfRange v.toNat .read) :=
  readWord_eq_error.mpr ⟨outside_of_lt outside, rfl⟩

theorem effMovMrR_outside (outside : t.memSize < (t.reg a).toNat + 2) :
    effMovMrR (idxByte a) (idxByte r) t = .error (outOfRange (t.reg a).toNat .write) := by
  rw [effMovMrR, regIdx_idxByte_bind, regIdx_idxByte_bind, store_outside _ outside]

theorem effMovMrC_outside (outside : t.memSize < (t.reg a).toNat + 2) :
    effMovMrC (idxByte a) c t = .error (outOfRange (t.reg a).toNat .write) := by
  rw [effMovMrC, regIdx_idxByte_bind, store_outside _ outside]

theorem effMovRM_outside (outside : t.memSize < m.toNat + 2) :
    effMovRM (idxByte d) m t = .error (outOfRange m.toNat .read) := by
  rw [effMovRM, regIdx_idxByte_bind, eaAbs, load_outside outside, error_bind]

theorem effMovRMr_outside (outside : t.memSize < (t.reg a).toNat + 2) :
    effMovRMr (idxByte d) (idxByte a) t = .error (outOfRange (t.reg a).toNat .read) := by
  rw [effMovRMr, regIdx_idxByte_bind, regIdx_idxByte_bind, State.eaReg, load_outside outside, error_bind]

theorem effMovMrM_outside_read (outside : t.memSize < m.toNat + 2) :
    effMovMrM (idxByte a) m t = .error (outOfRange m.toNat .read) := by
  rw [effMovMrM, regIdx_idxByte_bind, eaAbs, checkRange_outside .read outside, error_bind]

theorem effMovMrM_outside_write (inside : m.toNat + 2 ≤ t.memSize) (outside : t.memSize < (t.reg a).toNat + 2) :
    effMovMrM (idxByte a) m t = .error (outOfRange (t.reg a).toNat .write) := by
  rw [effMovMrM, regIdx_idxByte_bind, eaAbs, State.eaReg, checkRange_inside .read inside, ok_bind,
    checkRange_outside .write outside, error_bind]

end

/-- Settles O49 (60_exceptions R202): the range check of each store raises. -/
theorem storesOutsideMemoryFault : Obligations.StoresOutsideMemoryFault := by
  intro s a r c
  refine ⟨fun low high => ?_, fun outside => ?_, fun outside => ?_⟩
  · have fault := effPush_outside (t := s.advance 2) r (by rw [sp_advance]; omega)
      (by rw [sp_advance, advance_memSize]; omega)
    exact exec_of_effectOf_error (i := .push _) fault
  · exact exec_of_effectOf_error (i := .movMrR _ _) (effMovMrR_outside outside)
  · exact exec_of_effectOf_error (i := .movMrC _ _) (effMovMrC_outside outside)

/-- Settles O50 (60_exceptions R202, 42_mov R131): the range check of each load raises, and of the two checks of
`MOV [a],[m]` the read's comes first. -/
theorem loadsOutsideMemoryFault : Obligations.LoadsOutsideMemoryFault := by
  intro s a d m
  refine ⟨fun outside => ?_, fun outside => ?_, fun outside => ?_, fun inside outside => ?_⟩
  · exact exec_of_effectOf_error (i := .movRM _ _) (effMovRM_outside outside)
  · exact exec_of_effectOf_error (i := .movRMr _ _) (effMovRMr_outside outside)
  · exact exec_of_effectOf_error (i := .movMrM _ _) (effMovMrM_outside_read outside)
  · exact exec_of_effectOf_error (i := .movMrM _ _) (effMovMrM_outside_write inside outside)

end Sys2Proof.Proofs
end

section
/-! PROOFS. Where `pc` and the values of a fault can lie after a step, and the invariant that every move keeps. -/

namespace Sys2Proof.Proofs
open Sys2Proof.Machine

/-! ### Bounds on what was fetched -/

theorem completeFetches_near {ws : List Nat} {n : Nat} (narrow : ∀ w ∈ ws, w ≤ 2) (short : n < ws.sum) :
    n < completeFetches ws n + 2 := by
  induction ws generalizing n with
  | nil => simp at short
  | cons w ws ih =>
    rw [List.forall_mem_cons] at narrow
    rw [List.sum_cons] at short
    unfold completeFetches
    split_ifs with h
    · have := ih narrow.2 (n := n - w) (by omega)
      omega
    · omega

theorem fetchWidths_le (i : Instr) : ∀ w ∈ fetchWidths i, w ≤ 2 := by
  cases i <;> simp [fetchWidths]

theorem length_le_maxLength (i : Instr) : i.length ≤ maxLength := by
  cases i <;> simp [Instr.length, lenN, lenR, lenRR, lenRW, lenW, maxLength]

/-- A sequence that is cut off ends at most one byte after its complete fetches, and is shorter than the longest
instruction. -/
theorem length_of_truncated {bs : List Byte} {k : Nat} (h : decode bs = .error (.truncated k)) :
    k ≤ bs.length ∧ bs.length < k + 2 ∧ bs.length < maxLength := by
  obtain ⟨i, missing, some_missing, enc, rfl⟩ := decode_eq_truncated.mp h
  have short : bs.length < i.length := by
    rw [← encode_length, enc, List.length_append]
    exact Nat.lt_add_of_pos_right (List.length_pos_iff.mpr some_missing)
  exact ⟨completeFetches_le _ _, completeFetches_near (fetchWidths_le i) (sum_fetchWidths i ▸ short),
    short.trans_le (length_le_maxLength i)⟩

theorem length_stream (s : State) : s.stream.length = min maxLength (s.memSize - s.pc.toNat) := by
  rw [stream_eq_bytesAhead, bytesAhead, List.length_map, List.length_range]

theorem length_of_fetchInstr {s u : State} {i : Instr} (size : s.memSize ≤ 65535) (h : s.fetchInstr = .ok (i, u)) :
    s.pc.toNat + i.length ≤ s.memSize := by
  rw [fetchInstr_eq_fetchOutcome size] at h
  match decoded : decode s.stream, h with
  | .ok (j, rest), h =>
    cases h
    have bytes := congrArg List.length ((decodeEncodeAgree s.stream rest i).mp decoded)
    rw [length_stream, List.length_append, encode_length] at bytes
    have := encode_length i ▸ List.length_pos_iff.mpr (encode_ne_nil i)
    omega

/-- What a fetch can raise: an opcode without a row, one past it; or an access that fails at the byte or word missing. -/
inductive FetchCause (s : State) : Nat → Raise → Prop
  | undefined {op : Byte} (large : 20 ≤ op.toNat) (inside : s.pc.toNat + 1 ≤ s.memSize) :
      FetchCause s 1 ⟨.undefinedOpcode, op.toNat, .none⟩
  | opcode (outside : s.memSize ≤ s.pc.toNat) : FetchCause s 0 (outOfRange s.pc.toNat .fetch)
  | operand {k : Nat} (few : k ≤ maxLength) (inside : s.pc.toNat + k ≤ s.memSize)
      (cut : s.memSize < s.pc.toNat + k + 2) : FetchCause s k (outOfRange ((s.pc.toNat + k : Nat) : Int) .fetch)

theorem fetchCause_of_error {s u : State} {r : Raise} (size : s.memSize ≤ 65535) (h : s.fetchInstr = .error (u, r)) :
    ∃ n, FetchCause s n r ∧ u = s.advance n := by
  by_cases inside : s.pc.toNat < s.memSize
  · rw [fetchInstr_eq_fetchOutcome size] at h
    match decoded : decode s.stream, h with
    | .error (.undefinedOpcode op), h =>
      cases h
      exact ⟨1, .undefined (decode_eq_undefinedOpcode.mp decoded).1 inside, rfl⟩
    | .error (.truncated k), h =>
      cases h
      obtain ⟨le, near, short⟩ := length_of_truncated decoded
      rw [length_stream] at le near short
      exact ⟨k, .operand (by omega) (by omega) (by omega), rfl⟩
  · rw [fetchInstr_pc_outside (by omega)] at h
    cases h
    exact ⟨0, .opcode (by omega), (advance_zero s).symm⟩

/-- Everything a step can do, with the bounds on `pc`. -/
theorem step_outcome {s t : State} (size : s.memSize ≤ 65535) (h : step s = .next t) : s.Running ∧
    ((∃ i u, s.fetchInstr = .ok (i, u) ∧ s.pc.toNat + i.length ≤ s.memSize ∧ exec i s = .next t) ∨
      ∃ n r, FetchCause s n r ∧ t = s.faultedAfter n r.kind r.value r.access) := by
  obtain ⟨run, ⟨i, u, fetched, executed⟩ | ⟨u, r, raised, rfl⟩⟩ := step_cases h
  · exact ⟨run, .inl ⟨i, u, fetched, length_of_fetchInstr size fetched, executed⟩⟩
  · obtain ⟨n, cause, rfl⟩ := fetchCause_of_error size raised
    exact ⟨run, .inr ⟨n, r, cause, rfl⟩⟩

/-- Settles O21 (10_state section 2): an instruction that is no transfer ends inside memory, and so do the fetches before
one that fails. -/
theorem pcStaysInsideMemory : Obligations.PcStaysInsideMemory := by
  intro s t size run h
  obtain ⟨-, ⟨i, u, fetched, inside, executed⟩ | ⟨n, r, cause, rfl⟩⟩ := step_outcome size h
  · obtain advanced | ⟨transfer, noFault⟩ := onlyTransfersAssignPc i s t run.1 executed
    · have pc := toNat_pc_advance (s := s) (n := i.length) (by omega)
      rw [advance_pc, ← advanced] at pc
      exact .inl (.inl (pc ▸ inside))
    · exact .inr ⟨i, u, fetched, transfer, noFault⟩
  · have pc (bound : s.pc.toNat + n ≤ s.memSize) : (s.advance n).pc.toNat ≤ s.memSize := by
      rw [toNat_pc_advance (by omega)]
      exact bound
    cases cause with
    | undefined _ inside => exact .inl (.inl (pc inside))
    | opcode outside => exact .inl (.inr ⟨rfl, outside⟩)
    | operand _ inside _ => exact .inl (.inl (pc inside))

/-! ### The parts of the invariant -/

theorem flagsLegal_setFlag_runSlot {s : State} (b : Bool) (legal : s.flagsLegal) :
    (s.setFlag runSlot b).flagsLegal := by
  obtain ⟨unused, exclusive⟩ := legal
  have keeps {j : Fin 16} (other : j ≠ runSlot) := flag_setFlag_ne s runSlot j b other
  refine ⟨fun j lt gt eq run => ?_, ?_⟩
  · rw [keeps run]
    exact unused j lt gt eq run
  · rwa [keeps (j := ltSlot) (by decide), keeps (j := gtSlot) (by decide), keeps (j := eqSlot) (by decide)]

theorem flagsLegal_compare {s : State} (u v : Word) (legal : s.flagsLegal) : (s.compare u v).flagsLegal := by
  obtain ⟨unused, -⟩ := legal
  refine ⟨fun j lt gt eq run => ?_, ?_⟩
  · rw [flag_compare, if_neg eq, if_neg gt, if_neg lt]
    exact unused j lt gt eq run
  · simp only [flag_compare, ltSlot, gtSlot, eqSlot, Fin.reduceEq, if_true, if_false, decide_eq_true_eq]
    omega

theorem Commit.flagsLegal {i : Instr} {t u : State} (c : Commit i t u) (legal : t.flagsLegal) : u.flagsLegal := by
  induction c with
  | start => exact legal
  | compare _ _ ih => exact flagsLegal_compare _ _ ih
  | halt _ _ ih => exact flagsLegal_setFlag_runSlot false ih
  | setReg _ _ ih | putWord _ _ _ ih | setPc _ _ ih => exact ih

theorem Commit.memLegal {i : Instr} {t u : State} (c : Commit i t u) (legal : t.memLegal) : u.memLegal := by
  induction c with
  | start => exact legal
  | putWord c _ inside ih =>
    obtain ⟨low, high, wf, below⟩ := ih
    exact ⟨low, high, wf_putWord _ _ wf, below_putWord _ below (c.memSize_eq ▸ inside)⟩
  | setReg _ _ ih | compare _ _ ih | halt _ _ ih | setPc _ _ ih => exact ih

/-! ### The fields of a recorded fault -/

theorem faultLegal_of_no_fault {s : State} (noFault : s.fault = none) : s.faultLegal :=
  fun _ h => nomatch noFault.symm.trans h

theorem Cause.fieldsLegal {i : Instr} {t : State} {r : Raise} (c : Cause i t r) (ipc pc : Word) :
    FaultRecord.fieldsLegal t.memSize ⟨r.kind, r.value, r.access, ipc, pc⟩ := by
  cases c with
  | @index b k operand bad =>
    have low : 16 ≤ (b.toNat : Int) := by omega
    have high : (b.toNat : Int) ≤ 255 := by have := b.isLt; omega
    obtain rfl | rfl := kind_of_mem_indexOperands operand
    · exact ⟨rfl, low, high⟩
    · exact ⟨rfl, low, high⟩
  | access row word outside =>
    refine ⟨?_, word.1, word.2, outside⟩
    rintro rfl
    cases i <;> exact nomatch row
  | overflow _ low => exact ⟨rfl, zext_nonneg _, low⟩
  | underflow _ high => exact ⟨rfl, (zext_word _).2, high⟩

theorem FetchCause.fieldsLegal {s : State} {n : Nat} {r : Raise} (c : FetchCause s n r) (size : s.memSize ≤ 65535)
    (ipc pc : Word) : FaultRecord.fieldsLegal s.memSize ⟨r.kind, r.value, r.access, ipc, pc⟩ := by
  cases c with
  | @undefined op large _ =>
    have low : 20 ≤ (op.toNat : Int) := by omega
    have high : (op.toNat : Int) ≤ 255 := by have := op.isLt; omega
    exact ⟨rfl, low, high⟩
  | opcode outside =>
    have cut : (s.memSize : Int) < s.pc.toNat + 2 := by omega
    exact ⟨nofun, (zext_word s.pc).1, (zext_word s.pc).2, cut⟩
  | operand _ inside cut =>
    have high : ((s.pc.toNat + n : Nat) : Int) ≤ 65535 := by omega
    have cut' : (s.memSize : Int) < ((s.pc.toNat + n : Nat) : Int) + 2 := by omega
    exact ⟨nofun, Int.natCast_nonneg _, high, cut'⟩

theorem FetchCause.bounds {s : State} {n : Nat} {r : Raise} (c : FetchCause s n r) (size : s.memSize ≤ 65535) :
    n ≤ maxLength ∧ s.pc.toNat + n ≤ 65535 := by
  cases c with
  | undefined _ inside => exact ⟨by decide, by omega⟩
  | opcode _ => exact ⟨Nat.zero_le _, Nat.le_of_lt_succ s.pc.isLt⟩
  | operand few inside _ => exact ⟨few, by omega⟩

theorem legal_faultedAfter {s : State} {n : Nat} {r : Raise} (legal : s.Legal) (run : s.Running)
    (few : n ≤ maxLength) (bound : s.pc.toNat + n ≤ 65535)
    (fields : ∀ ipc pc, FaultRecord.fieldsLegal s.memSize ⟨r.kind, r.value, r.access, ipc, pc⟩) :
    (s.faultedAfter n r.kind r.value r.access).Legal := by
  obtain ⟨mem, flags, -⟩ := legal
  refine ⟨mem, flags, fun record h => ?_⟩
  cases h
  have pc : (s.pc + BitVec.ofNat 16 n).toNat = s.pc.toNat + n := toNat_pc_advance bound
  exact ⟨run.2, rfl, by simp only [pc]; omega, by simp only [pc]; omega, fields _ _⟩

/-! ### Every move keeps the invariant -/

/-- Settles O12 (10_state sections 3, 5, 7): a completed instruction keeps each part by its updates, and a fault changes
only the record and `pc`. -/
theorem stepKeepsLegal : Obligations.StepKeepsLegal := by
  intro s t legal h
  obtain ⟨mem, flags, -⟩ := id legal
  have size : s.memSize ≤ 65535 := mem.2.1
  obtain ⟨run, ⟨i, u, -, inside, executed⟩ | ⟨n, r, cause, rfl⟩⟩ := step_outcome size h
  · obtain c | ⟨r, cause, rfl⟩ := commit_or_cause executed
    · exact ⟨c.memLegal mem, c.flagsLegal flags, faultLegal_of_no_fault (c.fault_eq.trans run.1)⟩
    · exact legal_faultedAfter legal run (length_le_maxLength i) (by omega) cause.fieldsLegal
  · obtain ⟨few, bound⟩ := cause.bounds size
    exact legal_faultedAfter legal run few bound (cause.fieldsLegal size)

theorem whenHalted_eq_ok {s : State} {α : Type} {k : Except HostError α} {a : α} :
    s.whenHalted k = .ok a ↔ s.runState = .halted ∧ k = .ok a := by
  unfold State.whenHalted
  split
  · next halted => exact ⟨fun h => ⟨halted, h⟩, fun h => h.2⟩
  · next running => exact ⟨fun h => (nomatch h), fun h => nomatch running.symm.trans h.1⟩
  · next faulted => exact ⟨fun h => (nomatch h), fun h => nomatch faulted.symm.trans h.1⟩

theorem fault_of_halted {s : State} (halted : s.runState = .halted) : s.fault = none := by
  unfold State.runState at halted
  split at halted
  · exact nomatch halted
  · assumption

theorem hostLoad_eq_ok {s t : State} {bytes : List Byte} {offset : Int} : s.hostLoad bytes offset = .ok t ↔
    s.runState = .halted ∧ (0 ≤ offset ∧ offset + bytes.length ≤ s.memSize) ∧
      t = { s with mem := s.mem.writeBytes offset.toNat bytes } := by
  rw [State.hostLoad, whenHalted_eq_ok]
  split_ifs with fits
  · simp only [fits, Except.ok.injEq, eq_comm (a := t), true_and, and_self]
  · simp only [fits, false_and, and_false]

theorem runEntry_eq_ok {s t : State} {start : Word} : s.runEntry start = .ok t ↔
    s.runState = .halted ∧ t = (s.setPc start).setFlag runSlot true := by
  rw [State.runEntry, whenHalted_eq_ok, Except.ok.injEq, eq_comm (a := t)]

/-- Settles O13 (20_memory R58, 40_loop R100): a load that fits stays inside memory, and the run entry sets slot 5. -/
theorem hostMovesKeepLegal : Obligations.HostMovesKeepLegal := by
  constructor
  · rintro s t bytes offset ⟨⟨low, high, wf, below⟩, flags, fault⟩ h
    obtain ⟨-, fits, rfl⟩ := hostLoad_eq_ok.mp h
    have inside : offset.toNat + bytes.length ≤ s.memSize := by omega
    exact ⟨⟨low, high, Memory.wf_writeBytes _ _ wf, Memory.below_writeBytes _ _ below inside⟩, flags, fault⟩
  · rintro s t start ⟨mem, flags, -⟩ h
    obtain ⟨halted, rfl⟩ := runEntry_eq_ok.mp h
    have noFault := fault_of_halted halted
    exact ⟨mem, flagsLegal_setFlag_runSlot true flags, faultLegal_of_no_fault noFault⟩

end Sys2Proof.Proofs
end

section
/-! PROOFS. The results of the instructions: moves, arithmetic, comparison, flags and transfers (42_mov to
45_control_flow). -/

namespace Sys2Proof.Proofs
open Sys2Proof.Machine

/-! ### The three kinds of result -/

section
variable {i : Instr} {s : State} {n a : Nat} {d : Fin 16} {v : Word}

theorem frame_advance_setReg : Frame s ((s.advance n).setReg d v) [d] [] :=
  ⟨fun _ other => reg_setReg_ne _ _ _ _ (List.ne_of_not_mem_cons other), fun _ _ => rfl, rfl, rfl⟩

theorem completes_setReg (h : exec i s = .next ((s.advance n).setReg d v)) : ∃ t, exec i s = .next t ∧ t.reg d = v ∧
    t.pc = s.pc + BitVec.ofNat 16 n ∧ Frame s t [d] [] ∧ SameBytes s t :=
  ⟨_, h, reg_setReg_self .., rfl, frame_advance_setReg, fun _ => rfl⟩

theorem completes_putWord (h : exec i s = .next ((s.advance n).putWord a v)) : ∃ t, exec i s = .next t ∧ t.wordAt a = v ∧
    t.pc = s.pc + BitVec.ofNat 16 n ∧ Frame s t [] [] ∧ SameBytesOutsideWord s t a :=
  ⟨_, h, wordAt_putWord_self .., rfl, frame_putWord (s.advance n) a v, sameBytesOutsideWord_putWord (s.advance n) a v⟩

theorem frame_advance_setPc : Frame s ((s.advance n).setPc v) [] [] :=
  ⟨fun _ _ => rfl, fun _ _ => rfl, rfl, rfl⟩

end

/-! ### Moves between registers and memory -/

section
variable (s : State) (a d r : Fin 16) (m c : Word)

theorem exec_movRR :
    exec (.movRR (idxByte d) (idxByte r)) s = .next ((s.advance 3).setReg d (s.reg r)) :=
  exec_of_effectOf_ok (effMovRR_eq_ok.mpr ⟨d, r, toNat_idxByte d, toNat_idxByte r, rfl⟩)

theorem exec_movRC : exec (.movRC (idxByte d) c) s = .next ((s.advance 4).setReg d c) :=
  exec_of_effectOf_ok (effMovRC_eq_ok.mpr ⟨d, toNat_idxByte d, rfl⟩)

variable {s a m}

theorem word_inside {v : Word} (inside : v.toNat + 2 ≤ s.memSize) : zext v + 2 ≤ s.memSize := by
  unfold zext
  omega

theorem exec_movRM (inside : m.toNat + 2 ≤ s.memSize) :
    exec (.movRM (idxByte d) m) s = .next ((s.advance 4).setReg d (s.wordAt m.toNat)) :=
  exec_of_effectOf_ok (effMovRM_eq_ok.mpr ⟨d, toNat_idxByte d, word_inside inside, rfl⟩)

theorem exec_movRMr (inside : (s.reg a).toNat + 2 ≤ s.memSize) : exec (.movRMr (idxByte d) (idxByte a)) s =
    .next ((s.advance 3).setReg d (s.wordAt (s.reg a).toNat)) :=
  exec_of_effectOf_ok (effMovRMr_eq_ok.mpr ⟨d, a, toNat_idxByte d, toNat_idxByte a, word_inside inside, rfl⟩)

theorem exec_movMrR (inside : (s.reg a).toNat + 2 ≤ s.memSize) : exec (.movMrR (idxByte a) (idxByte r)) s =
    .next ((s.advance 3).putWord (s.reg a).toNat (s.reg r)) :=
  exec_of_effectOf_ok (effMovMrR_eq_ok.mpr ⟨a, r, toNat_idxByte a, toNat_idxByte r, word_inside inside, rfl⟩)

theorem exec_movMrC (inside : (s.reg a).toNat + 2 ≤ s.memSize) : exec (.movMrC (idxByte a) c) s =
    .next ((s.advance 4).putWord (s.reg a).toNat c) :=
  exec_of_effectOf_ok (effMovMrC_eq_ok.mpr ⟨a, toNat_idxByte a, word_inside inside, rfl⟩)

theorem exec_movMrM (inside : (s.reg a).toNat + 2 ≤ s.memSize) (source : m.toNat + 2 ≤ s.memSize) :
    exec (.movMrM (idxByte a) m) s = .next ((s.advance 4).putWord (s.reg a).toNat (s.wordAt m.toNat)) :=
  exec_of_effectOf_ok (effMovMrM_eq_ok.mpr ⟨a, toNat_idxByte a, word_inside source, word_inside inside, rfl⟩)

end

/-- Settles O29 (42_mov R133, R135). -/
theorem registerMovesCopy : Obligations.RegisterMovesCopy :=
  fun s d r c => ⟨completes_setReg (exec_movRR s d r), completes_setReg (exec_movRC s d c)⟩

/-- Settles O26 (42_mov R130, R132): both store one word at `x[a]`. -/
theorem registerIndirectStores : Obligations.RegisterIndirectStores :=
  fun _ _ r c inside => ⟨completes_putWord (exec_movMrR r inside), completes_putWord (exec_movMrC c inside)⟩

/-- Settles O27 (42_mov R131): the word put is read in the state before. -/
theorem memoryToMemoryCopies : Obligations.MemoryToMemoryCopies :=
  fun _ _ _ inside source => completes_putWord (exec_movMrM inside source)

/-- Settles O28 (42_mov R134, R136): both load one word, which is joined high byte first. -/
theorem loadsReadTheWord : Obligations.LoadsReadTheWord := by
  intro s d a m
  constructor
  · intro inside
    obtain ⟨t, h, loaded, rest⟩ := completes_setReg (exec_movRM d inside)
    exact ⟨t, h, loaded ▸ toNat_wordAt s _, rest⟩
  · intro inside
    obtain ⟨t, h, loaded, rest⟩ := completes_setReg (exec_movRMr d inside)
    exact ⟨t, h, loaded ▸ toNat_wordAt s _, rest⟩

/-- The two bytes at `pc` are the first two of the stream. -/
theorem take_stream {s : State} (size : s.memSize ≤ 65535) (inside : s.pc.toNat + 2 ≤ s.memSize) :
    s.stream.take 2 = [s.byteAt s.pc.toNat, s.byteAt (s.pc.toNat + 1)] := by
  have pc : (s.advance 1).pc.toNat = s.pc.toNat + 1 := toNat_pc_advance (by omega)
  rw [stream_eq_bytesAhead, maxLength, bytesAhead_inside size (by omega),
    bytesAhead_inside (s := s.advance 1) size (by rw [pc, advance_memSize]; omega), pc]
  rfl

theorem fetch_putWord_pc {s : State} (c : Word) (size : s.memSize ≤ 65535) (inside : s.pc.toNat + 2 ≤ s.memSize) :
    (s.putWord s.pc.toNat c).stream.take 2 = [hiByte c, loByte c] ∧
      (s.putWord s.pc.toNat c).fetch8 = .ok (hiByte c, (s.putWord s.pc.toNat c).advance 1) := by
  rw [take_stream (s := s.putWord s.pc.toNat c) size inside,
    fetch8_inside (s := s.putWord s.pc.toNat c) (Nat.lt_of_succ_lt inside), putWord_pc, byteAt_putWord_hi,
    byteAt_putWord_lo]
  exact ⟨rfl, rfl⟩

/-- Settles O57 (20_memory section 4): the bytes at the new `pc` are those of the word just put. -/
theorem storeIsSeenByNextFetch : Obligations.StoreIsSeenByNextFetch := by
  intro s a c size room target
  have stored := exec_movMrC (a := a) c (show (s.reg a).toNat + 2 ≤ s.memSize by omega)
  have pc : (s.advance 4).pc.toNat = s.pc.toNat + 4 := toNat_pc_advance (by omega)
  rw [target, ← pc] at stored
  exact ⟨_, stored, pc, fetch_putWord_pc c size (by rw [pc, advance_memSize]; omega)⟩

/-! ### Arithmetic -/

theorem toNat_trunc16 (n : Int) : ((trunc16 n).toNat : Int) = n % 65536 := by
  rw [trunc16, BitVec.toNat_ofInt]
  omega

theorem toNat_addWords (u v : Word) : ((addWords u v).toNat : Int) = ((u.toNat : Int) + v.toNat) % 65536 :=
  toNat_trunc16 _

theorem toNat_subWords (u v : Word) : ((subWords u v).toNat : Int) = ((u.toNat : Int) - v.toNat) % 65536 :=
  toNat_trunc16 _

section
variable (s : State) (d r : Fin 16) (c : Word)

theorem exec_addRR : exec (.addRR (idxByte d) (idxByte r)) s =
    .next ((s.advance 3).setReg d (addWords (s.reg d) (s.reg r))) :=
  exec_of_effectOf_ok (effAddRR_eq_ok.mpr ⟨d, r, toNat_idxByte d, toNat_idxByte r, rfl⟩)

theorem exec_subRR : exec (.subRR (idxByte d) (idxByte r)) s =
    .next ((s.advance 3).setReg d (subWords (s.reg d) (s.reg r))) :=
  exec_of_effectOf_ok (effSubRR_eq_ok.mpr ⟨d, r, toNat_idxByte d, toNat_idxByte r, rfl⟩)

theorem exec_addRC : exec (.addRC (idxByte d) c) s = .next ((s.advance 4).setReg d (addWords (s.reg d) c)) :=
  exec_of_effectOf_ok (effAddRC_eq_ok.mpr ⟨d, toNat_idxByte d, rfl⟩)

theorem exec_subRC : exec (.subRC (idxByte d) c) s = .next ((s.advance 4).setReg d (subWords (s.reg d) c)) :=
  exec_of_effectOf_ok (effSubRC_eq_ok.mpr ⟨d, toNat_idxByte d, rfl⟩)

end

/-- Settles O30 (43_arithmetic R150, R152, R154). -/
theorem registerArithmeticWraps : Obligations.RegisterArithmeticWraps := by
  intro s d r
  obtain ⟨t, added, sum, afterAdd⟩ := completes_setReg (exec_addRR s d r)
  obtain ⟨u, subtracted, difference, afterSub⟩ := completes_setReg (exec_subRR s d r)
  exact ⟨⟨t, added, sum ▸ toNat_addWords _ _, afterAdd⟩, ⟨u, subtracted, difference ▸ toNat_subWords _ _, afterSub⟩⟩

/-- Settles O31 (43_arithmetic R151, R153, R154). -/
theorem immediateArithmeticWraps : Obligations.ImmediateArithmeticWraps := by
  intro s d c
  obtain ⟨t, added, sum, afterAdd⟩ := completes_setReg (exec_addRC s d c)
  obtain ⟨u, subtracted, difference, afterSub⟩ := completes_setReg (exec_subRC s d c)
  exact ⟨⟨t, added, sum ▸ toNat_addWords _ _, afterAdd⟩, ⟨u, subtracted, difference ▸ toNat_subWords _ _, afterSub⟩⟩

theorem trunc16_congr {m n : Int} (same : m % 65536 = n % 65536) : trunc16 m = trunc16 n := by
  apply BitVec.eq_of_toNat_eq
  have := toNat_trunc16 m
  have := toNat_trunc16 n
  omega

/-- The two readings of a word differ by a multiple of 65536. -/
theorem sext_emod (v : Word) : sext v % 65536 = zext v % 65536 := by
  unfold sext zext
  split_ifs <;> omega

/-- Settles O32 (43_arithmetic R154): the two readings of a word agree modulo 65536, and so do their sums and
differences. -/
theorem arithmeticHasNoSign : Obligations.ArithmeticHasNoSign := by
  intro u v
  constructor
  · exact trunc16_congr (by rw [Int.add_emod, ← sext_emod u, ← sext_emod v, ← Int.add_emod])
  · exact trunc16_congr (by rw [Int.sub_emod, ← sext_emod u, ← sext_emod v, ← Int.sub_emod])

/-! ### Comparison and flags -/

theorem exec_cmp (s : State) (a b : Fin 16) :
    exec (.cmp (idxByte a) (idxByte b)) s = .next ((s.advance 3).compare (s.reg a) (s.reg b)) :=
  exec_of_effectOf_ok (effCmp_eq_ok.mpr ⟨a, b, toNat_idxByte a, toNat_idxByte b, rfl⟩)

theorem exec_flg (s : State) (d j : Fin 16) :
    exec (.flg (idxByte d) (idxByte j)) s = .next ((s.advance 3).setReg d (flagWord (s.flag j))) :=
  exec_of_effectOf_ok (effFlg_eq_ok.mpr ⟨d, j, toNat_idxByte d, toNat_idxByte j, rfl⟩)

section
variable (s : State) (u v : Word)

theorem flag_compare_lt : (s.compare u v).flag ltSlot = true ↔ u.toInt < v.toInt := by
  simp [flag_compare, ltSlot, gtSlot, eqSlot, sext_eq_toInt]

theorem flag_compare_gt : (s.compare u v).flag gtSlot = true ↔ v.toInt < u.toInt := by
  simp [flag_compare, gtSlot, eqSlot, sext_eq_toInt]

theorem flag_compare_eq : (s.compare u v).flag eqSlot = true ↔ u = v := by
  simp [flag_compare, sext_eq_toInt, BitVec.toInt_inj]

theorem frame_compare : Frame s (s.compare u v) [] [ltSlot, gtSlot, eqSlot] := by
  refine ⟨fun _ _ => reg_compare .., fun j other => ?_, compare_memSize .., compare_fault ..⟩
  simp only [List.mem_cons, List.not_mem_nil, or_false, not_or] at other
  obtain ⟨lt, gt, eq⟩ := other
  rw [flag_compare, if_neg eq, if_neg gt, if_neg lt]

end

/-- Settles O33 (44_compare_flags R160): the slots of `State.compare`. -/
theorem compareAssignsThreeSlots : Obligations.CompareAssignsThreeSlots :=
  fun s a b => ⟨_, exec_cmp s a b, flag_compare_lt .., flag_compare_gt .., flag_compare_eq .., rfl,
    frame_compare (s.advance 3) .., fun _ => rfl⟩

theorem toNat_flagWord (b : Bool) : (flagWord b).toNat = if b = true then 1 else 0 := by
  cases b <;> rfl

/-- Settles O34 (44_compare_flags R161): the word written is `flagWord`. -/
theorem flagReadWritesWholeRegister : Obligations.FlagReadWritesWholeRegister := by
  intro s d j
  obtain ⟨t, h, read, rest⟩ := completes_setReg (exec_flg s d j)
  exact ⟨t, h, read ▸ toNat_flagWord _, rest⟩

/-! ### Transfers -/

theorem exec_jnz (s : State) (r : Fin 16) (m : Word) :
    exec (.jnz (idxByte r) m) s = .next (if s.reg r ≠ 0 then (s.advance 4).setPc m else s.advance 4) :=
  exec_of_effectOf_ok (effJnz_eq_ok.mpr ⟨r, toNat_idxByte r, rfl⟩)

/-- Settles O35 (45_control_flow R170): the two branches of `JNZ`. -/
theorem jumpIfNotZero : Obligations.JumpIfNotZero := by
  intro s r m
  refine ⟨_, exec_jnz s r m, ?_⟩
  by_cases zero : s.reg r = 0
  · rw [if_neg (not_not_intro zero)]
    exact ⟨fun nonzero => absurd zero nonzero, fun _ => rfl, frame_advance s 4, fun _ => rfl⟩
  · rw [if_pos zero]
    exact ⟨fun _ => rfl, fun isZero => absurd isZero zero, frame_advance_setPc, fun _ => rfl⟩

theorem exec_call (s : State) (a : Fin 16) : exec (.call (idxByte a)) s =
    .next (((s.advance 2).setReg lrIdx (s.pc + 2)).setPc (if a = lrIdx then s.pc + 2 else s.reg a)) := by
  refine exec_of_effectOf_ok (effCall_eq_ok.mpr ⟨a, toNat_idxByte a, ?_⟩)
  rw [reg_setReg]
  rfl

/-- Settles O37 (45_control_flow R172): the link register is written, then the target is read. -/
theorem callSavesReturnAddress : Obligations.CallSavesReturnAddress := by
  intro s a
  have frame : Frame s ((s.advance 2).setReg lrIdx (s.pc + 2)) [lrIdx] [] := frame_advance_setReg
  exact ⟨_, exec_call s a, reg_setReg_self .., rfl, frame, fun _ => rfl⟩

/-- Settles O39 (95_test_vectors S7): `RET` goes to the link register that `CALL` wrote. -/
theorem callThenReturnComesBack : Obligations.CallThenReturnComesBack := by
  intro s a
  obtain ⟨t, called, link, -, frame, bytes⟩ := callSavesReturnAddress s a
  exact ⟨t, _, called, exec_ret t, link, frame, bytes⟩

end Sys2Proof.Proofs
end

section
/-! PROOFS. The stack discipline (41_stack). -/

namespace Sys2Proof.Proofs
open Sys2Proof.Machine

/-! ### `PUSH` -/

theorem trunc16_zext_add_two (v : Word) : trunc16 (zext v + 2) = v + 2 := addWords_eq v 2

theorem trunc16_zext_sub_two (v : Word) : trunc16 (zext v - 2) = v - 2 := subWords_eq v 2

theorem effPush_inside {t : State} (r : Fin 16) (low : 2 ≤ (t.reg spIdx).toNat)
    (high : (t.reg spIdx).toNat ≤ t.memSize) : effPush (idxByte r) t = .ok ((t.setReg spIdx (t.reg spIdx - 2)).putWord ((t.reg spIdx).toNat - 2)
      (if r = spIdx then t.reg spIdx - 2 else t.reg r)) := by
  have address : (t.sp - 2).toNat = (t.reg spIdx).toNat - 2 := by rw [sp_eq]; omega
  have lowered : trunc16 (t.sp - 2) = t.reg spIdx - 2 := trunc16_zext_sub_two _
  refine effPush_eq_ok.mpr ⟨r, toNat_idxByte r, by rw [sp_eq]; omega, by rw [sp_eq]; omega, ?_⟩
  rw [address, lowered, reg_setReg]

theorem exec_push {s : State} (r : Fin 16) (low : 2 ≤ (s.reg spIdx).toNat) (high : (s.reg spIdx).toNat ≤ s.memSize) :
    exec (.push (idxByte r)) s = .next (((s.advance 2).setReg spIdx (s.reg spIdx - 2)).putWord
      ((s.reg spIdx).toNat - 2) (if r = spIdx then s.reg spIdx - 2 else s.reg r)) :=
  exec_of_effectOf_ok (effPush_inside (t := s.advance 2) r low high)

theorem toNat_sub_two {v : Word} (low : 2 ≤ v.toNat) : (v - 2).toNat = v.toNat - 2 :=
  BitVec.toNat_sub_of_le low

/-- Settles O22 (41_stack R120): the pointer is lowered, then the register is read and stored. -/
theorem pushStoresBelowStackPointer : Obligations.PushStoresBelowStackPointer := by
  intro s r low high
  have frame : Frame s ((s.advance 2).setReg spIdx (s.reg spIdx - 2)) [spIdx] [] := frame_advance_setReg
  refine ⟨_, exec_push r low high, ?_, wordAt_putWord_self .., rfl, frame, ?_⟩
  · rw [reg_putWord, reg_setReg_self, toNat_sub_two low]
  · intro b outside
    exact byteAt_putWord_ne _ _ (by omega) (by omega)

/-! ### `POP` -/

theorem effPop_inside {t : State} (r : Fin 16) (inside : (t.reg spIdx).toNat + 2 ≤ t.memSize) :
    effPop (idxByte r) t = .ok ((t.setReg r (t.wordAt (t.reg spIdx).toNat)).setReg spIdx
      ((if spIdx = r then t.wordAt (t.reg spIdx).toNat else t.reg spIdx) + 2)) := by
  refine effPop_eq_ok.mpr ⟨r, toNat_idxByte r, by rw [sp_eq]; omega, ?_⟩
  rw [← reg_setReg, ← trunc16_zext_add_two]
  rfl

theorem exec_pop {s : State} (r : Fin 16) (inside : (s.reg spIdx).toNat + 2 ≤ s.memSize) :
    exec (.pop (idxByte r)) s = .next (((s.advance 2).setReg r (s.wordAt (s.reg spIdx).toNat)).setReg spIdx
      ((if spIdx = r then s.wordAt (s.reg spIdx).toNat else s.reg spIdx) + 2)) :=
  exec_of_effectOf_ok (effPop_inside (t := s.advance 2) r inside)

/-- Settles O23 (41_stack R121): the register is written, then the pointer is read again and raised. -/
theorem popLoadsFromStackPointer : Obligations.PopLoadsFromStackPointer := by
  intro s r inside size
  refine ⟨_, exec_pop r inside, fun other => ⟨?_, ?_⟩, fun same => ?_, rfl, ⟨?_, fun _ _ => rfl, rfl, rfl⟩, fun _ => rfl⟩
  · rw [reg_setReg_ne _ _ _ _ other, reg_setReg_self]
  · rw [reg_setReg_self, if_neg (Ne.symm other), BitVec.toNat_add_of_lt (show _ + 2 < 65536 by omega)]
    rfl
  · rw [reg_setReg_self, if_pos same.symm]
  · intro i other
    simp only [List.mem_cons, List.not_mem_nil, or_false, not_or] at other
    rw [reg_setReg_ne _ _ _ _ other.2, reg_setReg_ne _ _ _ _ other.1, reg_advance]

/-! ### Pushes and pops together -/

theorem wordAt_eq_of_bytes {s t : State} {a : Nat} (high : t.byteAt a = s.byteAt a)
    (low : t.byteAt (a + 1) = s.byteAt (a + 1)) : t.wordAt a = s.wordAt a := by
  rw [State.wordAt, State.wordAt, high, low]

/-- Settles O24 (41_stack): the `POP` finds the pointer and the word that the `PUSH` left. -/
theorem pushThenPopRestores : Obligations.PushThenPopRestores := by
  intro s r low high size
  obtain ⟨t, pushed, pointer, word, -, ⟨regs, flags, n, fault⟩, bytes⟩ := pushStoresBelowStackPointer s r low high
  have inside : (t.reg spIdx).toNat + 2 ≤ t.memSize := by omega
  obtain ⟨u, popped, loaded, loadedSp, -, ⟨regs', flags', n', fault'⟩, bytes'⟩ :=
    popLoadsFromStackPointer t r inside (n ▸ size)
  rw [pointer, word] at loaded loadedSp
  have stackPointer : u.reg spIdx = s.reg spIdx := by
    by_cases same : r = spIdx
    · rw [loadedSp same, if_pos same, BitVec.sub_add_cancel]
    · exact BitVec.eq_of_toNat_eq ((loaded same).2.trans (Nat.sub_add_cancel low))
  have register : u.reg r = s.reg r := by
    by_cases same : r = spIdx
    · rw [same, stackPointer]
    · exact (loaded same).1.trans (if_neg same)
  have restored (i : Fin 16) : u.reg i = s.reg i := by
    by_cases sp : i = spIdx
    · rw [sp, stackPointer]
    · by_cases same : i = r
      · rw [same, register]
      · exact (regs' i (by simp [same, sp])).trans (regs i (by simp [sp]))
  refine ⟨t, u, pushed, popped, ⟨fun i _ => restored i, ?_, n'.trans n, fault'.trans fault⟩, ?_, ?_⟩
  · exact fun j other => (flags' j other).trans (flags j other)
  · exact (wordAt_eq_of_bytes (bytes' _) (bytes' _)).trans word
  · exact fun b outside => (bytes' b).trans (bytes b outside)

/-- Settles O25 (41_stack): the second push leaves the first word alone, so each pop finds the word pushed last. -/
theorem stackIsLastInFirstOut : Obligations.StackIsLastInFirstOut := by
  intro s a b c d ha hb hc hd hcd low high size
  obtain ⟨t1, push1, pointer1, word1, -, ⟨regs1, -, size1, -⟩, -⟩ := pushStoresBelowStackPointer s a (by omega) high
  obtain ⟨t2, push2, pointer2, word2, -, ⟨-, -, size2, -⟩, bytes2⟩ :=
    pushStoresBelowStackPointer t1 b (by omega) (by omega)
  obtain ⟨t3, pop3, loaded3, -, -, ⟨-, -, size3, -⟩, bytes3⟩ := popLoadsFromStackPointer t2 c (by omega) (by omega)
  obtain ⟨register3, pointer3⟩ := loaded3 hc
  obtain ⟨t4, pop4, loaded4, -, -, ⟨regs4, -, -, -⟩, -⟩ := popLoadsFromStackPointer t3 d (by omega) (by omega)
  obtain ⟨register4, pointer4⟩ := loaded4 hd
  refine ⟨t1, t2, t3, t4, push1, push2, pop3, pop4, ?_, ?_, BitVec.eq_of_toNat_eq (by omega)⟩
  · calc t4.reg c = t3.reg c := regs4 c (by simp [hc, hcd])
      _ = t2.wordAt ((t1.reg spIdx).toNat - 2) := by rw [register3, pointer2]
      _ = t1.reg b := word2.trans (if_neg hb)
      _ = s.reg b := regs1 b (by simp [hb])
  · have pointer3' : (t3.reg spIdx).toNat = (s.reg spIdx).toNat - 2 := by omega
    calc t4.reg d = t3.wordAt ((s.reg spIdx).toNat - 2) := by rw [register4, pointer3']
      _ = t2.wordAt ((s.reg spIdx).toNat - 2) := wordAt_eq_of_bytes (bytes3 _) (bytes3 _)
      _ = t1.wordAt ((s.reg spIdx).toNat - 2) :=
        wordAt_eq_of_bytes (bytes2 _ (.inr (by omega))) (bytes2 _ (.inr (by omega)))
      _ = s.reg a := word1.trans (if_neg ha)

end Sys2Proof.Proofs
end

section
/-! PROOFS. Who writes and who reads the flags (10_state section 3). -/

namespace Sys2Proof.Proofs
open Sys2Proof.Machine

/-! ### Effects that do not read the flags -/

/-- The state with other flags. -/
def withFlags (s : State) (fs : Vector Bool 16) : State := { s with flags := fs }

/-- With other flags in the state, the outcome is the same in everything but the flags. -/
def FlagBlind (effect : State → Except Raise State) : Prop :=
  ∀ (t : State) (fs : Vector Bool 16), ∃ gs, effect (withFlags t fs) = (effect t).map fun u => withFlags u gs

section
variable {α : Type}

/-- A first part that does not read the flags at all, followed by a flag-blind rest. -/
theorem flagBlind_bind {x : State → Except Raise α} {f : α → State → Except Raise State}
    (hx : ∀ t fs, x (withFlags t fs) = x t) (hf : ∀ a, FlagBlind (f a)) : FlagBlind fun t => x t >>= fun a => f a t := by
  intro t fs
  cases answer : x t with
  | ok a =>
    obtain ⟨gs, h⟩ := hf a t fs
    exact ⟨gs, by simpa only [hx, answer, ok_bind] using h⟩
  | error e => exact ⟨fs, by simp only [hx, answer, error_bind, Except.map]⟩

theorem flagBlind_reg (p : Byte) {f : Fin 16 → State → Except Raise State} (hf : ∀ d, FlagBlind (f d)) :
    FlagBlind fun t => regIdx p >>= fun d => f d t :=
  flagBlind_bind (fun _ _ => rfl) hf

theorem flagBlind_pure {f : State → State} (hf : ∀ t fs, ∃ gs, f (withFlags t fs) = withFlags (f t) gs) :
    FlagBlind fun t => .ok (f t) := by
  intro t fs
  obtain ⟨gs, h⟩ := hf t fs
  exact ⟨gs, congrArg Except.ok h⟩

/-- A commit that writes registers, memory or `pc` alone. -/
theorem flagBlind_commit {f : State → State} (hf : ∀ t fs, f (withFlags t fs) = withFlags (f t) fs) :
    FlagBlind fun t => .ok (f t) :=
  flagBlind_pure fun t fs => ⟨fs, hf t fs⟩

theorem flagBlind_writeWord {g : State → State} {a : State → Int} {v : State → Word}
    (hg : ∀ t fs, g (withFlags t fs) = withFlags (g t) fs) (ha : ∀ t fs, a (withFlags t fs) = a t)
    (hv : ∀ t fs, v (withFlags t fs) = v t) : FlagBlind fun t => (g t).writeWord (a t) (v t) :=
  flagBlind_bind (x := fun t => (g t).checkRange (a t) 2 .write) (f := fun _ t => .ok ((g t).putWord (a t).toNat (v t)))
    (fun t fs => by rw [hg, ha]; rfl) fun _ => flagBlind_commit fun t fs => by rw [hg, ha, hv]; rfl

end

theorem setFlag_withFlags (t : State) (fs : Vector Bool 16) (j : Fin 16) (b : Bool) :
    (withFlags t fs).setFlag j b = withFlags (t.setFlag j b) (fs.set j b) := rfl

theorem compare_withFlags (t : State) (fs : Vector Bool 16) (u v : Word) :
    ∃ gs, (withFlags t fs).compare u v = withFlags (t.compare u v) gs := by
  unfold State.compare
  rw [setFlag_withFlags, setFlag_withFlags, setFlag_withFlags]
  exact ⟨_, rfl⟩

theorem flagBlind_effectOf {i : Instr} (noRead : ∀ d j, i ≠ .flg d j) : FlagBlind (effectOf i) := by
  cases i with
  | flg d j => exact absurd rfl (noRead d j)
  | push p =>
    exact flagBlind_reg p fun r => flagBlind_bind (x := State.pushGuard) (fun _ _ => rfl) fun _ =>
      flagBlind_bind (x := fun t => t.checkRange (t.sp - 2) 2 .write) (fun _ _ => rfl) fun _ =>
        flagBlind_writeWord (g := fun t => t.setReg spIdx (trunc16 (t.sp - 2))) (fun _ _ => rfl) (fun _ _ => rfl)
          fun _ _ => rfl
  | pop p =>
    exact flagBlind_reg p fun r => flagBlind_bind (x := State.popGuard) (fun _ _ => rfl) fun _ =>
      flagBlind_bind (x := fun t => t.readWord t.sp .read) (fun _ _ => rfl) fun v => flagBlind_commit fun _ _ => rfl
  | movMrR p q =>
    exact flagBlind_reg p fun a => flagBlind_reg q fun r =>
      flagBlind_writeWord (g := id) (fun _ _ => rfl) (fun _ _ => rfl) fun _ _ => rfl
  | movMrM p m =>
    exact flagBlind_reg p fun a =>
      flagBlind_bind (x := fun t => t.checkRange (eaAbs m) 2 .read) (fun _ _ => rfl) fun _ =>
        flagBlind_bind (x := fun t => t.checkRange (t.eaReg a) 2 .write) (fun _ _ => rfl) fun _ =>
          flagBlind_bind (x := fun t => t.load (eaAbs m)) (fun _ _ => rfl) fun v =>
            flagBlind_writeWord (g := id) (fun _ _ => rfl) (fun _ _ => rfl) fun _ _ => rfl
  | movMrC p c =>
    exact flagBlind_reg p fun a => flagBlind_writeWord (g := id) (fun _ _ => rfl) (fun _ _ => rfl) fun _ _ => rfl
  | movRM p m =>
    exact flagBlind_reg p fun d => flagBlind_bind (x := fun t => t.load (eaAbs m)) (fun _ _ => rfl) fun v =>
      flagBlind_commit fun _ _ => rfl
  | movRMr p q =>
    exact flagBlind_reg p fun d => flagBlind_reg q fun a =>
      flagBlind_bind (x := fun t => t.load (t.eaReg a)) (fun _ _ => rfl) fun v => flagBlind_commit fun _ _ => rfl
  | movRR p q => exact flagBlind_reg p fun d => flagBlind_reg q fun r => flagBlind_commit fun _ _ => rfl
  | subRR p q => exact flagBlind_reg p fun d => flagBlind_reg q fun r => flagBlind_commit fun _ _ => rfl
  | addRR p q => exact flagBlind_reg p fun d => flagBlind_reg q fun r => flagBlind_commit fun _ _ => rfl
  | movRC p c => exact flagBlind_reg p fun d => flagBlind_commit fun _ _ => rfl
  | subRC p c => exact flagBlind_reg p fun d => flagBlind_commit fun _ _ => rfl
  | addRC p c => exact flagBlind_reg p fun d => flagBlind_commit fun _ _ => rfl
  | cmp p q =>
    exact flagBlind_reg p fun a => flagBlind_reg q fun b => flagBlind_pure fun t fs => compare_withFlags t fs _ _
  | jnz p m =>
    exact flagBlind_reg p fun r => flagBlind_commit fun t fs =>
      (apply_ite (withFlags · fs) (t.reg r ≠ 0) (t.setPc m) t).symm
  | jmp m => exact flagBlind_commit fun _ _ => rfl
  | call p => exact flagBlind_reg p fun a => flagBlind_commit fun _ _ => rfl
  | ret => exact flagBlind_commit fun _ _ => rfl
  | hlt => exact flagBlind_pure fun t fs => ⟨_, rfl⟩

theorem exec_withFlags {i : Instr} {s t : State} (fs : Vector Bool 16) (noRead : ∀ d j, i ≠ .flg d j)
    (h : exec i s = .next t) : ∃ gs, exec i (withFlags s fs) = .next (withFlags t gs) := by
  obtain ⟨gs, blind⟩ := flagBlind_effectOf noRead (s.advance i.length) fs
  obtain completed | ⟨r, raised, rfl⟩ := exec_cases h
  · rw [completed] at blind
    exact ⟨gs, exec_of_effectOf_ok blind⟩
  · rw [raised] at blind
    exact ⟨fs, exec_of_effectOf_error blind⟩

/-! ### Writers -/

theorem writer_of_mem_writesFlags {i : Instr} {j : Fin 16} (row : j ∈ writesFlags i) :
    (∃ a b, i = .cmp a b ∧ (j = 0 ∨ j = 2 ∨ j = 4)) ∨ (i = .hlt ∧ j = 5) := by
  cases i
  case cmp a b => exact .inl ⟨a, b, rfl, by simpa [writesFlags, ltSlot, gtSlot, eqSlot] using row⟩
  case hlt => exact .inr ⟨rfl, by simpa [writesFlags, runSlot] using row⟩
  all_goals exact absurd row (List.not_mem_nil)

theorem step_next_iff_of_no_fault {s : State} (noFault : s.fault = none) :
    (∃ t, step s = .next t) ↔ s.flag runSlot = true :=
  (stepEnabledExactlyWhenRunning s).trans ⟨fun run => run.2, fun flag => ⟨noFault, flag⟩⟩

/-- Settles O44 (10_state R23, R25): the writers with what they write, the frame of all others, and that no other
instruction than `FLG` reads a slot. -/
theorem flagWritersAndReaders : Obligations.FlagWritersAndReaders := by
  refine ⟨fun a b s => ?_, fun s => ?_, fun s start halted => ?_, fun i s t j h changed => ?_,
    fun s t start j h changed => ?_, fun i s t fs noRead h => exec_withFlags fs noRead h, fun d j s => ?_,
    fun s noFault => step_next_iff_of_no_fault noFault⟩
  · exact ⟨_, exec_cmp s a b, flag_compare_lt .., flag_compare_gt .., flag_compare_eq ..⟩
  · exact ⟨_, exec_hlt s, flag_setFlag_self ..⟩
  · exact ⟨_, runEntry_halted halted start, flag_setFlag_self ..⟩
  · obtain ⟨-, sameFlags, -⟩ := exec_frame h
    by_contra notWriter
    exact changed (sameFlags j fun row => notWriter (writer_of_mem_writesFlags row))
  · obtain ⟨-, rfl⟩ := runEntry_eq_ok.mp h
    by_contra other
    exact changed (flag_setFlag_ne _ runSlot j true other)
  · exact ⟨_, exec_flg s d j, reg_setReg_self ..⟩

end Sys2Proof.Proofs
end

section
/-! PROOFS. The run states, the loop of `Run` and the host's moves (10_state section 7, 20_memory section 5,
40_loop section 1). -/

namespace Sys2Proof.Proofs
open Sys2Proof.Machine

/-! ### The run states -/

theorem runState_faulted {s : State} {f : FaultRecord} (h : s.fault = some f) : s.runState = .faulted := by
  simp only [State.runState, h]

theorem running_iff {s : State} : s.Running ↔ s.runState = .running := by
  cases noFault : s.fault with
  | some f => simp [State.Running, runState_faulted noFault, noFault]
  | none => cases flag : s.flag runSlot <;> simp [State.Running, State.runState, noFault, flag]

theorem whenHalted_running {s : State} {α : Type} (running : s.runState = .running) (k : Except HostError α) :
    s.whenHalted k = .error .machineRunning := by
  simp only [State.whenHalted, running]

theorem whenHalted_faulted {s : State} {α : Type} (faulted : s.runState = .faulted) (k : Except HostError α) :
    s.whenHalted k = .error .machineFaulted := by
  simp only [State.whenHalted, faulted]

/-! ### The loop -/

theorem runLoop_not_running {s : State} (stopped : s.runState ≠ .running) (n : Nat) : State.runLoop n s = some s := by
  cases n with
  | zero => exact if_neg stopped
  | succ n =>
    unfold State.runLoop
    split
    · exact absurd ‹_› stopped
    · rfl
    · rfl

theorem runLoop_succ_of_step {s t : State} (h : step s = .next t) (n : Nat) :
    State.runLoop (n + 1) s = State.runLoop n t := by
  have running : s.runState = .running := running_iff.mp (step_cases h).1
  simp only [State.runLoop, running, h]

/-- An answer is a machine that is not Running, and more fuel changes nothing: each unit is spent on the same step. -/
theorem runLoop_eq_some {n : Nat} {s t : State} (h : State.runLoop n s = some t) :
    t.runState ≠ .running ∧ ∀ k, State.runLoop (n + k) s = some t := by
  induction n generalizing s with
  | zero =>
    by_cases running : s.runState = .running
    · exact nomatch (if_pos running).symm.trans h
    · obtain rfl := Option.some.inj ((runLoop_not_running running 0).symm.trans h)
      exact ⟨running, fun k => runLoop_not_running running _⟩
  | succ n ih =>
    by_cases running : s.runState = .running
    · obtain ⟨u, stepped⟩ := (stepEnabledExactlyWhenRunning s).mpr (running_iff.mpr running)
      obtain ⟨stopped, more⟩ := ih ((runLoop_succ_of_step stepped n).symm.trans h)
      exact ⟨stopped, fun k => by rw [Nat.add_right_comm, runLoop_succ_of_step stepped, more]⟩
    · obtain rfl := Option.some.inj ((runLoop_not_running running (n + 1)).symm.trans h)
      exact ⟨running, fun k => runLoop_not_running running _⟩

/-- Settles O56 (40_loop R101): by induction on the fuel, one step for each unit. -/
theorem runLoopStopsOnlyWhenNotRunning : Obligations.RunLoopStopsOnlyWhenNotRunning := by
  refine ⟨fun n s t h => ?_, fun n k s t h => (runLoop_eq_some h).2 k, fun n s t h => runLoop_succ_of_step h n,
    fun n s h => ?_⟩
  · exact running_iff.not.mpr (runLoop_eq_some h).1
  · exact runLoop_not_running (running_iff.not.mp h) n

/-- Settles O52 (10_state R30, R31): a Faulted machine has no step and no move of the host. -/
theorem faultIsFinal : Obligations.FaultIsFinal := by
  refine ⟨fun _ => rfl, fun s ipc r => ⟨_, rfl, rfl, rfl, rfl, rfl, rfl⟩, fun s f h => ?_⟩
  have faulted := runState_faulted h
  have stopped : s.runState ≠ .running := by rw [faulted]; nofun
  exact ⟨step_faulted h, runLoop_not_running stopped, fun _ _ => whenHalted_faulted faulted _,
    fun _ => whenHalted_faulted faulted _⟩

/-! ### The host's moves -/

/-- Settles O53 (20_memory R58, R59): a load that is let in writes its bytes one after another. -/
theorem loadIsAllOrNothing : Obligations.LoadIsAllOrNothing := by
  intro s bytes offset
  refine ⟨fun halted nonneg fits => ?_, fun halted outside => ?_, fun running => whenHalted_running running _,
    fun faulted => whenHalted_faulted faulted _⟩
  · refine ⟨_, hostLoad_eq_ok.mpr ⟨halted, ⟨nonneg, fits⟩, rfl⟩, fun a => ?_,
      ⟨fun _ _ => rfl, fun _ _ => rfl, rfl, rfl⟩, rfl⟩
    obtain ⟨n, rfl⟩ := Int.eq_ofNat_of_zero_le nonneg
    have index : ((a : Int) - n).toNat = a - n := Int.toNat_sub a n
    refine (read_writeBytes s.mem n a bytes).trans ?_
    rw [index]
    exact if_congr (by omega) rfl rfl
  · rw [State.hostLoad, if_neg outside]
    simp only [State.whenHalted, halted]

/-- Settles O54 (40_loop R100, R113): the entry action, after which the first fetch is at the start address. -/
theorem runEntrySetsPcAndFlag : Obligations.RunEntrySetsPcAndFlag := by
  intro s start
  refine ⟨fun halted => ?_, fun running => whenHalted_running running _, fun faulted => whenHalted_faulted faulted _⟩
  have running : ((s.setPc start).setFlag runSlot true).Running := running_setPc_setFlag (fault_of_halted halted) start
  refine ⟨_, runEntry_halted halted start, rfl, running.2, ⟨fun _ _ => rfl, fun j other => ?_, rfl, rfl⟩, fun _ => rfl,
    running, fun outside => step_pc_outside running outside⟩
  exact flag_setFlag_ne _ _ _ _ (List.ne_of_not_mem_cons other)

/-- Settles O55 (20_memory R60): the bytes of memory, listed by address. -/
theorem snapshotIsAllOfMemory : Obligations.SnapshotIsAllOfMemory := by
  intro s
  refine ⟨fun stopped => ⟨_, hostSnapshot_not_running stopped, by simp, fun a inside => by simp [inside]⟩,
    fun running => ?_⟩
  simp only [State.hostSnapshot, running]

/-! ### Placing an instruction -/

theorem running_withFetchWord (s : State) (nbits w : Nat) : (s.withFetchWord nbits w).Running :=
  ⟨rfl, flag_setFlag_self s runSlot true⟩

theorem length_tableBytes (nbits w : Nat) : (tableBytes nbits w).length = maxLength := by
  rw [tableBytes, List.length_map, List.length_range]

/-- Where the longest instruction fits, the bytes from `pc` on are those of the placed word. -/
theorem stream_withFetchWord {s : State} (nbits w : Nat) (room : s.pc.toNat + maxLength ≤ s.memSize) :
    (s.withFetchWord nbits w).stream = tableBytes nbits w := by
  have fits : (tableBytes nbits w).take (s.memSize - s.pc.toNat) = tableBytes nbits w :=
    List.take_of_length_le (by rw [length_tableBytes]; omega)
  apply List.ext_getElem
  · rw [length_stream, length_tableBytes]
    exact Nat.min_eq_left (Nat.le_sub_of_add_le' room)
  · intro k _ inside
    have placed : (s.withFetchWord nbits w).byteAt (s.pc.toNat + k) = (tableBytes nbits w)[k] := by
      refine (read_writeBytes s.mem s.pc.toNat (s.pc.toNat + k) _).trans ?_
      rw [fits, if_pos (by omega), Nat.add_sub_cancel_left, List.getD_eq_getElem _ _ inside]
    rw [← placed]
    simp only [State.stream, List.getElem_map, List.getElem_range]
    rfl

/-- Settles O59 (70_reset_and_hazards R243): the stream decodes to the placed instruction. -/
theorem placedWordRunsNext : Obligations.PlacedWordRunsNext := by
  intro s nbits w i size room h
  unfold decodeTableWord at h
  rw [← stream_withFetchWord nbits w room] at h
  split at h
  · next j rest decoded =>
    obtain rfl := Option.some.inj h
    exact stepRunsDecodedInstruction _ _ rest size (running_withFetchWord s nbits w) decoded
  · exact nomatch h

end Sys2Proof.Proofs
end
